-- ==== Sys2Proof/Word.lean ====
section
/-! DEFINITION. The words, records and message shapes of the XCB block: what a command, a parameter record and a
response are made of. No behaviour stands here. -/

namespace Sys2Proof

/-- `REG_W` = 16: the CRC running register and every numeric CRC parameter (00_scope.md R6, R7). -/
abbrev Word := BitVec 16

/-- `BYTE_W` = 8: one CRC input symbol (00_scope.md R6). -/
abbrev Byte := BitVec 8

/-- One buffer element: an opaque `ELEM_W`-bit vector given by its unsigned value (10_state.md R21: "no command
interprets, compares or modifies the bits of an element").  `ELEM_W` is an OPEN parameter (00_scope.md R6), so the
bound `e < 2 ^ ELEM_W` is `elemFits` and an invariant (Safety.lean), not part of the type (assumption log 3). -/
abbrev Elem := Nat

/-- The seven-field parameter record `CrcParameters` (10_state.md R16). -/
structure CrcParams where
  /-- "unsigned 16-bit generator polynomial" -/
  polynomial : Word
  /-- `xorIn`: the seed of the running register -/
  initialValue : Word
  /-- `xorOut`: xored into the result, but only when `reflectOutput` (40_crc_engine.md R79) -/
  finalXor : Word
  /-- the mask of the most significant bit position, "normally 0x8000" -/
  msbMask : Word
  /-- the mask of the result, "normally 0xFFFF"; applied only when `reflectOutput` (R79) -/
  outputMask : Word
  /-- reverse the bits of each input byte -/
  reflectInput : Bool
  /-- reverse the bits of the register at output, and enable the xor and mask step -/
  reflectOutput : Bool
  deriving DecidableEq, Repr

/-- The parameter selector `sel` of `CRC.CREATE` and `CRC.COMPUTE` with the record that `sel` = 3 carries in `PW`
(30_encoding.md R56). -/
inductive ParamSel where
  /-- `sel` = 0, "Default/XModem" -/
  | xmodem
  /-- `sel` = 1, "Mcrf4XX" -/
  | mcrf4xx
  /-- `sel` = 2, "Modbus" -/
  | modbus
  /-- `sel` = 3, the record carried in `PW` -/
  | explicit (p : CrcParams)
  deriving DecidableEq, Repr

/-- A command as a requester presents it: the tuple (`CW`, `PW`, `SEQ`) of 30_encoding.md R51.  An accompaniment that
the format does not take is ignored, and one that it takes is always there, possibly of length 0 (R62). -/
structure Request where
  /-- the command word -/
  cw : BitVec 64
  /-- the parameter word, examined only when `sel` = 3 (R55) -/
  pw : BitVec 96
  /-- `DATA`, read by `CRC.COMPUTE` only (20_memory.md R32) -/
  data : List Byte
  /-- `ITEMS`, read by `BUF.ADD` only (20_memory.md R33) -/
  items : List Elem
  deriving DecidableEq, Repr

/-- The six error kinds (60_exceptions.md R114). -/
inductive ErrorKind where
  | invalidArgument
  | indexOutOfRange
  | capacityExceeded
  | preconditionViolation
  | notConstructed
  | illegalCommand
  deriving DecidableEq, Repr

/-- The status of a response: `OK`, or the error raised (30_encoding.md R57). -/
inductive Status where
  | ok
  | error (e : ErrorKind)
  deriving DecidableEq, Repr

/-- One response (`status`, `value`, `OUT`) (30_encoding.md R57).  `value` is the unsigned value of the `VAL_W`-bit
field; `out` is the payload `OUT` (20_memory.md R35). -/
structure Response where
  status : Status
  value : Nat
  out : List Elem
  deriving DecidableEq, Repr

/-- The 14 commands by name, as the rows of the opcode map list them (30_encoding.md R59). -/
inductive Mnemonic where
  | crcCreate | crcReset | crcUpdate | crcGetResult | crcCompute
  | bufCreate | bufAdd | bufCount | bufHasData | bufHasDataN | bufPeek | bufGetData | bufRemove | bufClear
  deriving DecidableEq, Repr

end Sys2Proof
end

