-- ==== Sys2Proof/Config.lean ====
section
/-! DEFINITION. What an implementation of the block fixes (the OPEN parameters of 00_scope.md R6 and
92_eei_decisions.md) and the free values of what the spec leaves without a value. -/

namespace Sys2Proof

/-- The OPEN parameters, "left as a named parameter the model takes as an argument" (00_scope.md R6).  The model's step
takes one argument, the state, so the state carries this record and no step changes it (assumption log 1). -/
structure Config where
  /-- `ELEM_W`, the width of one buffer element in bits, at least 1 (D8) -/
  elemW : Nat
  /-- `NMAX`, the largest capacity, 1 to 2^23 - 1 (D14) -/
  nmax : Nat
  /-- `NREQ`, the number of requesters, at least 1 (D21) -/
  nreq : Nat
  /-- `FAIR`, whether the BUF arbiter is weakly fair (D21); a premise of claims about endless runs (Safety.lean) -/
  fair : Bool
  deriving DecidableEq, Repr

namespace Config

/-- The spec's own values for examples (92_eei_decisions.md, "OPEN parameters, collected"): `ELEM_W` = 8,
`NMAX` = 2^23 - 1, `NREQ` = 1, `FAIR` not assumed. -/
def standard : Config := { elemW := 8, nmax := 8388607, nreq := 1, fair := false }

/-- `VAL_W = max(24, ELEM_W)`, the width of a response value (30_encoding.md R57). -/
def valW (c : Config) : Nat := max 24 c.elemW

/-- FREE VALUE: what a `STORE` slot holds that nothing has written since the last hardware reset, by the number of
hardware resets so far and the slot's index (93_implementation_defined.md U7, "any value").  Nothing constrains it. -/
opaque unwrittenSlot : Nat → Nat → Nat

/-- FREE VALUE: which of several waiting requesters is granted when no input says so, by the number of such choices so
far (20_memory.md R45, "no fairness guarantee"; 60_exceptions.md R121).  Nothing constrains it. -/
opaque freeGrant : Nat → Nat

end Config

end Sys2Proof
end

