-- ==== Sys2Proof/Syntax.lean ====
section
/-! DEFINITION. The command set: one constructor per row of spec/opcode_table.json, each with exactly the operands and
the accompaniment of its format (30_encoding.md R54, R59, R62).  Signed operands are the mathematical integers of R53. -/

namespace Sys2Proof

/-- A decoded command. -/
inductive Instr where
  /-- `CRC.CREATE sel` (format S) -/
  | crcCreate (sel : ParamSel)
  /-- `CRC.RESET` (format Z) -/
  | crcReset
  /-- `CRC.UPDATE c` (format B) -/
  | crcUpdate (c : Byte)
  /-- `CRC.GETRESULT` (format Z) -/
  | crcGetResult
  /-- `CRC.COMPUTE sel, start, length` with `DATA` (format C) -/
  | crcCompute (sel : ParamSel) (start length : Int) (data : List Byte)
  /-- `BUF.CREATE capacity` (format N) -/
  | bufCreate (capacity : Int)
  /-- `BUF.ADD count` with `ITEMS` (format NI); the count is called `n` as in R95 -/
  | bufAdd (n : Int) (items : List Elem)
  /-- `BUF.COUNT` (format Z) -/
  | bufCount
  /-- `BUF.HASDATA` (format Z) -/
  | bufHasData
  /-- `BUF.HASDATAN amount` (format N) -/
  | bufHasDataN (amount : Int)
  /-- `BUF.PEEK index` (format N) -/
  | bufPeek (index : Int)
  /-- `BUF.GETDATA amount` (format N) -/
  | bufGetData (amount : Int)
  /-- `BUF.REMOVE amount` (format N) -/
  | bufRemove (amount : Int)
  /-- `BUF.CLEAR` (format Z) -/
  | bufClear
  deriving DecidableEq, Repr

end Sys2Proof
end

