-- ==== Sys2Proof/WellFormed.lean ====
section
/-! DEFINITION. Which parameter choices, commands and requests the hardware can hold at all. -/

namespace Sys2Proof

/-- The legal ranges of the OPEN parameters (00_scope.md R6). -/
def Config.wf (c : Config) : Bool :=
  decide (1 ≤ c.elemW) && decide (1 ≤ c.nmax) && decide (c.nmax ≤ 8388607) && decide (1 ≤ c.nreq)

/-- A signed operand fits its `IDX_W` = 24 bit field: `-2^23 .. 2^23 - 1` (30_encoding.md R53). -/
def operandFits (n : Int) : Bool := decide (-8388608 ≤ n) && decide (n ≤ 8388607)

/-- An element fits its `ELEM_W` bits (00_scope.md R6, 20_memory.md R33). -/
def elemFits (c : Config) (e : Elem) : Bool := decide (e < 2 ^ c.elemW)

/-- Every element of a sequence fits. -/
def elemsFit (c : Config) (es : List Elem) : Bool := es.all (elemFits c)

/-- A command that the block can be given: its signed operands fit their fields (R53) and the elements it carries fit
`ELEM_W` bits (R51). -/
def Instr.wf (c : Config) : Instr → Bool
  | .crcCreate _ => true
  | .crcReset => true
  | .crcUpdate _ => true
  | .crcGetResult => true
  | .crcCompute _ start length _ => operandFits start && operandFits length
  | .bufCreate capacity => operandFits capacity
  | .bufAdd n items => operandFits n && elemsFit c items
  | .bufCount => true
  | .bufHasData => true
  | .bufHasDataN amount => operandFits amount
  | .bufPeek index => operandFits index
  | .bufGetData amount => operandFits amount
  | .bufRemove amount => operandFits amount
  | .bufClear => true

/-- A request a requester can present: any `CW`, any `PW`, any `DATA`, and `ITEMS` of `ELEM_W`-bit elements
(30_encoding.md R51, 70_reset_and_hazards.md R150). -/
def Request.wf (c : Config) (q : Request) : Bool := elemsFit c q.items

end Sys2Proof
end

