-- ==== Sys2Proof/Decode.lean ====
section
/-! DEFINITION. The decoder (30_encoding.md R52 to R61), total on every command word and parameter word, and after it
the encoder.  The decoder is the mask and match table of R59 read by the loop of R61. -/

namespace Sys2Proof

/-- `op = CW[63:56] = (unit, fn)` (R52). -/
def opField (cw : BitVec 64) : BitVec 8 := cw.extractLsb' 56 8
/-- `unit = CW[63:60]` (R52). -/
def unitField (cw : BitVec 64) : BitVec 4 := cw.extractLsb' 60 4
/-- `fn = CW[59:56]` (R52). -/
def fnField (cw : BitVec 64) : BitVec 4 := cw.extractLsb' 56 4
/-- `sel = CW[55:48]` (R52). -/
def selField (cw : BitVec 64) : BitVec 8 := cw.extractLsb' 48 8
/-- `a = CW[47:24]` (R52). -/
def aField (cw : BitVec 64) : BitVec 24 := cw.extractLsb' 24 24
/-- `b = CW[23:0]` (R52). -/
def bField (cw : BitVec 64) : BitVec 24 := cw.extractLsb' 0 24
/-- `c = CW[7:0]`, the byte of `CRC.UPDATE` (R53). -/
def cField (cw : BitVec 64) : Byte := cw.extractLsb' 0 8
/-- `b[23:8]`, zero in format B (R54). -/
def bHighField (cw : BitVec 64) : BitVec 16 := cw.extractLsb' 8 16
/-- `PW[95:82]`, reserved (R55). -/
def pwReserved (pw : BitVec 96) : BitVec 14 := pw.extractLsb' 82 14

/-- One row of the opcode map: `CW` selects it when `CW & mask == want` (R59). -/
structure Row where
  mnemonic : Mnemonic
  mask : BitVec 64
  want : BitVec 64
  deriving DecidableEq, Repr

/-- `CW & mask == match` (R59). -/
def Row.selects (r : Row) (cw : BitVec 64) : Bool := cw &&& r.mask == r.want

/-- The rows of the CRC unit (R59). -/
def crcRows : List Row :=
  [ ⟨.crcCreate,    0xFFFCFFFFFFFFFFFF#64, 0x0000000000000000#64⟩,
    ⟨.crcReset,     0xFFFFFFFFFFFFFFFF#64, 0x0100000000000000#64⟩,
    ⟨.crcUpdate,    0xFFFFFFFFFFFFFF00#64, 0x0200000000000000#64⟩,
    ⟨.crcGetResult, 0xFFFFFFFFFFFFFFFF#64, 0x0300000000000000#64⟩,
    ⟨.crcCompute,   0xFFFC000000000000#64, 0x0400000000000000#64⟩ ]

/-- The rows of the BUF unit (R59). -/
def bufRows : List Row :=
  [ ⟨.bufCreate,    0xFFFFFFFFFF000000#64, 0x1000000000000000#64⟩,
    ⟨.bufAdd,       0xFFFFFFFFFF000000#64, 0x1100000000000000#64⟩,
    ⟨.bufCount,     0xFFFFFFFFFFFFFFFF#64, 0x1200000000000000#64⟩,
    ⟨.bufHasData,   0xFFFFFFFFFFFFFFFF#64, 0x1300000000000000#64⟩,
    ⟨.bufHasDataN,  0xFFFFFFFFFF000000#64, 0x1400000000000000#64⟩,
    ⟨.bufPeek,      0xFFFFFFFFFF000000#64, 0x1500000000000000#64⟩,
    ⟨.bufGetData,   0xFFFFFFFFFF000000#64, 0x1600000000000000#64⟩,
    ⟨.bufRemove,    0xFFFFFFFFFF000000#64, 0x1700000000000000#64⟩,
    ⟨.bufClear,     0xFFFFFFFFFFFFFFFF#64, 0x1800000000000000#64⟩ ]

/-- The opcode map, 14 rows (R59). -/
def rows : List Row := crcRows ++ bufRows

/-- Why a command is illegal (R60): each is answered with `IllegalCommand`. -/
inductive Reject where
  /-- R60 (a) to (e): the command word matches no row -/
  | noRow
  /-- R60 (f): `sel` = 3 and `PW[95:82]` is not zero -/
  | reservedParamBits
  deriving DecidableEq, Repr

/-- `unpack(PW)`, the explicit parameter record (R55). -/
def unpack (pw : BitVec 96) : CrcParams :=
  { polynomial := pw.extractLsb' 0 16
    initialValue := pw.extractLsb' 16 16
    finalXor := pw.extractLsb' 32 16
    msbMask := pw.extractLsb' 48 16
    outputMask := pw.extractLsb' 64 16
    reflectInput := pw.getLsbD 80
    reflectOutput := pw.getLsbD 81 }

/-- The selector of a word that matched a row of format S or C, with its parameter word (R56, R61).  The row's mask
admits exactly `sel` = 0 to 3, so the two low bits `CW[49:48]` say which it is. -/
def decodeSel (cw : BitVec 64) (pw : BitVec 96) : Except Reject ParamSel :=
  let low := cw.extractLsb' 48 2
  if low == 3#2 then
    if pwReserved pw == 0#14 then .ok (.explicit (unpack pw)) else .error .reservedParamBits
  else if low == 2#2 then .ok .modbus
  else if low == 1#2 then .ok .mcrf4xx
  else .ok .xmodem

/-- `start = sext_int(CW[47:24])` (R53). -/
def aSigned (cw : BitVec 64) : Int := (aField cw).toInt
/-- `length`, `capacity`, `count`, `amount`, `index` `= sext_int(CW[23:0])` (R53). -/
def bSigned (cw : BitVec 64) : Int := (bField cw).toInt

/-- The command of a row, with the operands of its format (R54, R61). -/
def buildInstr (m : Mnemonic) (q : Request) : Except Reject Instr :=
  match m with
  | .crcCreate => (decodeSel q.cw q.pw).map Instr.crcCreate
  | .crcReset => .ok .crcReset
  | .crcUpdate => .ok (.crcUpdate (cField q.cw))
  | .crcGetResult => .ok .crcGetResult
  | .crcCompute => (decodeSel q.cw q.pw).map fun sel => .crcCompute sel (aSigned q.cw) (bSigned q.cw) q.data
  | .bufCreate => .ok (.bufCreate (bSigned q.cw))
  | .bufAdd => .ok (.bufAdd (bSigned q.cw) q.items)
  | .bufCount => .ok .bufCount
  | .bufHasData => .ok .bufHasData
  | .bufHasDataN => .ok (.bufHasDataN (bSigned q.cw))
  | .bufPeek => .ok (.bufPeek (bSigned q.cw))
  | .bufGetData => .ok (.bufGetData (bSigned q.cw))
  | .bufRemove => .ok (.bufRemove (bSigned q.cw))
  | .bufClear => .ok .bufClear

/-- The decoder (R61): total, every request is one of the 14 commands or illegal. -/
def decode (q : Request) : Except Reject Instr :=
  match rows.find? (fun r => r.selects q.cw) with
  | none => .error .noRow
  | some r => buildInstr r.mnemonic q

/-- Bit `i` of the table's numbering as a request: bits 63..0 are `CW`, bits 159..64 are `PW`; the host sequences are
empty (R51: a required sequence is never missing, "possibly a sequence of length 0", R62). -/
def requestOfBits (nbits w : Nat) : Request :=
  { cw := BitVec.ofNat 64 (w % 2 ^ nbits)
    pw := BitVec.ofNat 96 ((w % 2 ^ nbits) >>> 64)
    data := []
    items := [] }

/-- What the decoder reads from a table word (the host's fixed name). -/
def decodeTableWord (nbits w : Nat) : Option Instr :=
  match decode (requestOfBits nbits w) with
  | .ok i => some i
  | .error _ => none

/-! ## The encoder, from the same tables -/

/-- `CW` from its fields (R52). -/
def packCw (op sel : BitVec 8) (a b : BitVec 24) : BitVec 64 := op ++ sel ++ a ++ b

/-- `PW` from a parameter record (R55). -/
def pack (p : CrcParams) : BitVec 96 :=
  0#14 ++ BitVec.ofBool p.reflectOutput ++ BitVec.ofBool p.reflectInput ++ p.outputMask ++ p.msbMask ++ p.finalXor
    ++ p.initialValue ++ p.polynomial

/-- The `sel` field of a selector (R56). -/
def selCode : ParamSel → BitVec 8
  | .xmodem => 0#8
  | .mcrf4xx => 1#8
  | .modbus => 2#8
  | .explicit _ => 3#8

/-- The parameter word that accompanies a selector; zero where none is presented (R55). -/
def selPw : ParamSel → BitVec 96
  | .xmodem => 0#96
  | .mcrf4xx => 0#96
  | .modbus => 0#96
  | .explicit p => pack p

/-- The row name of a command (R59). -/
def Instr.mnemonic : Instr → Mnemonic
  | .crcCreate _ => .crcCreate
  | .crcReset => .crcReset
  | .crcUpdate _ => .crcUpdate
  | .crcGetResult => .crcGetResult
  | .crcCompute _ _ _ _ => .crcCompute
  | .bufCreate _ => .bufCreate
  | .bufAdd _ _ => .bufAdd
  | .bufCount => .bufCount
  | .bufHasData => .bufHasData
  | .bufHasDataN _ => .bufHasDataN
  | .bufPeek _ => .bufPeek
  | .bufGetData _ => .bufGetData
  | .bufRemove _ => .bufRemove
  | .bufClear => .bufClear

/-- The opcode of each command (R59). -/
def opcode : Mnemonic → BitVec 8
  | .crcCreate => 0x00#8
  | .crcReset => 0x01#8
  | .crcUpdate => 0x02#8
  | .crcGetResult => 0x03#8
  | .crcCompute => 0x04#8
  | .bufCreate => 0x10#8
  | .bufAdd => 0x11#8
  | .bufCount => 0x12#8
  | .bufHasData => 0x13#8
  | .bufHasDataN => 0x14#8
  | .bufPeek => 0x15#8
  | .bufGetData => 0x16#8
  | .bufRemove => 0x17#8
  | .bufClear => 0x18#8

/-- A request of a format that takes no sequence. -/
def plainRequest (m : Mnemonic) (b : BitVec 24) : Request :=
  { cw := packCw (opcode m) 0#8 0#24 b, pw := 0#96, data := [], items := [] }

/-- The words of a command: `CW`, `PW` and the host sequence its format takes (R52 to R55, R59). -/
def encode : Instr → Request
  | .crcCreate sel =>
      { cw := packCw (opcode .crcCreate) (selCode sel) 0#24 0#24, pw := selPw sel, data := [], items := [] }
  | .crcReset => plainRequest .crcReset 0#24
  | .crcUpdate c => plainRequest .crcUpdate (c.setWidth 24)
  | .crcGetResult => plainRequest .crcGetResult 0#24
  | .crcCompute sel start length data =>
      { cw := packCw (opcode .crcCompute) (selCode sel) (BitVec.ofInt 24 start) (BitVec.ofInt 24 length)
        pw := selPw sel, data := data, items := [] }
  | .bufCreate capacity => plainRequest .bufCreate (BitVec.ofInt 24 capacity)
  | .bufAdd n items => { plainRequest .bufAdd (BitVec.ofInt 24 n) with items := items }
  | .bufCount => plainRequest .bufCount 0#24
  | .bufHasData => plainRequest .bufHasData 0#24
  | .bufHasDataN amount => plainRequest .bufHasDataN (BitVec.ofInt 24 amount)
  | .bufPeek index => plainRequest .bufPeek (BitVec.ofInt 24 index)
  | .bufGetData amount => plainRequest .bufGetData (BitVec.ofInt 24 amount)
  | .bufRemove amount => plainRequest .bufRemove (BitVec.ofInt 24 amount)
  | .bufClear => plainRequest .bufClear 0#24

/-- R60, condition by condition: a command is illegal when its unit (a) or its function (b, c) does not exist, a field
its format requires to be zero is not (d), its selector is 4 to 255 (e), or its parameter word has a reserved bit set
(f).  R60 says that (a) to (e) are the words that match no row; that this agrees with `decode` is a statement
(Certificates/Slice0/Obligations.lean), not a definition. -/
def illegalByFields (q : Request) : Bool :=
  let unit := unitField q.cw
  let fn := fnField q.cw
  let op := opField q.cw
  let takesSel := op == opcode .crcCreate || op == opcode .crcCompute
  let formatZS := op == opcode .crcCreate || op == opcode .crcReset || op == opcode .crcGetResult ||
    op == opcode .bufCount || op == opcode .bufHasData || op == opcode .bufClear
  decide (2 ≤ unit.toNat) ||
  (unit == 0#4 && decide (5 ≤ fn.toNat)) ||
  (unit == 1#4 && decide (9 ≤ fn.toNat)) ||
  (!takesSel && selField q.cw != 0#8) ||
  (op != opcode .crcCompute && aField q.cw != 0#24) ||
  (formatZS && bField q.cw != 0#24) ||
  (op == opcode .crcUpdate && bHighField q.cw != 0#16) ||
  (takesSel && decide (4 ≤ (selField q.cw).toNat)) ||
  (takesSel && selField q.cw == 3#8 && pwReserved q.pw != 0#14)

/-- The four streaming commands of the CRC unit, which have one owner at a time (70_reset_and_hazards.md R141). -/
def Instr.streaming : Instr → Bool
  | .crcCreate _ => true
  | .crcReset => true
  | .crcUpdate _ => true
  | .crcGetResult => true
  | .crcCompute _ _ _ _ => false
  | .bufCreate _ => false
  | .bufAdd _ _ => false
  | .bufCount => false
  | .bufHasData => false
  | .bufHasDataN _ => false
  | .bufPeek _ => false
  | .bufGetData _ => false
  | .bufRemove _ => false
  | .bufClear => false

/-- A command of the BUF unit (30_encoding.md R59). -/
def Instr.isBuf : Instr → Bool
  | .crcCreate _ => false
  | .crcReset => false
  | .crcUpdate _ => false
  | .crcGetResult => false
  | .crcCompute _ _ _ _ => false
  | .bufCreate _ => true
  | .bufAdd _ _ => true
  | .bufCount => true
  | .bufHasData => true
  | .bufHasDataN _ => true
  | .bufPeek _ => true
  | .bufGetData _ => true
  | .bufRemove _ => true
  | .bufClear => true

end Sys2Proof
end

