-- ==== Sys2Proof/Machine/State.lean ====
section
/-! DEFINITION. The state of one XCB block with the requesters around it, as plain data; the reasons a step can stop;
and the state after hardware reset. -/

namespace Sys2Proof.Machine

open Sys2Proof

/-- The CRC unit (10_state.md R13, R14, R16). -/
structure CrcUnit where
  /-- `CRC.P`, the seven control fields -/
  params : CrcParams
  /-- `CRC.reg`, the running register -/
  reg : Word
  deriving DecidableEq, Repr

/-- The BUF unit (10_state.md R13, R18 to R23). -/
structure BufUnit where
  /-- `BUF.valid`: a buffer has been constructed -/
  valid : Bool
  /-- `BUF.cap`, the capacity `N`; meaningless while `valid` is false -/
  cap : Nat
  /-- `BUF.count`, the source's `dataInBuffer`; meaningless while `valid` is false -/
  count : Nat
  /-- `STORE`: the slots something has written since hardware reset, as (index, element) with the indices strictly
  rising.  An unlisted slot has never been written and holds a free value (`slotRead`). -/
  store : List (Nat × Elem)
  /-- The MODEL's own: how many hardware resets there have been, so that each gives the unwritten slots fresh free
  values (93_implementation_defined.md U7). -/
  epoch : Nat
  deriving DecidableEq, Repr

/-- A requester (00_scope.md R10, 60_exceptions.md R123): at most one command outstanding, and the responses it has
been given, oldest first.  The responses are the host's: the block keeps no record of them (10_state.md R26). -/
structure Requester where
  outstanding : Option Request
  received : List Response
  deriving DecidableEq, Repr

/-- What the outside can do between two commands (70_reset_and_hazards.md R150). -/
inductive Input where
  /-- requester `r` presents a command -/
  | present (r : Nat) (q : Request)
  /-- the unit grants the outstanding command of requester `r`, a free choice (60_exceptions.md R121) -/
  | grant (r : Nat)
  /-- hardware reset is applied (70_reset_and_hazards.md R133) -/
  | hardReset
  deriving DecidableEq, Repr

/-- The state. -/
structure State where
  /-- the OPEN parameters; no step changes them -/
  cfg : Config
  /-- the CRC unit -/
  crc : CrcUnit
  /-- the BUF unit -/
  buf : BufUnit
  /-- the response port: the response of the command being executed, handed to its requester within the same step and
  so `none` between steps (10_state.md R26: no copy of the last result) -/
  resp : Option Response
  /-- the requesters, by number -/
  reqs : List Requester
  /-- the MODEL's own: what the outside will do next, oldest first -/
  inputs : List Input
  /-- the MODEL's own: how many grants no input named so far, the argument of `Config.freeGrant` -/
  draws : Nat
  deriving DecidableEq, Repr

/-- The block has no fault: "No fatal/unrecoverable conditions exist within this core — all failures are local to the
single call" (60_exceptions.md R113).  Every error of the spec is a response and the machine goes on, so nothing raises
a fault and the type has no constructor. -/
inductive Fault where
  deriving DecidableEq, Repr

/-- Why the model gives no next state: the cases 93_implementation_defined.md part 1 treats with `refuse`, and the two
breaches of the host's side that no rule gives a meaning.  Each is safe: the model stops where a block would go on. -/
inductive Refusal where
  /-- an instruction whose meaning is not written yet; raised by no arm now (safe) -/
  | notModelled (mnemonic : String)
  /-- U1: `BUF.ADD` with `count < 0`; raised by `execBufAdd` (safe) -/
  | addNegativeCount
  /-- U2: `BUF.ADD` with `count > len(ITEMS)`; raised by `execBufAdd` (safe) -/
  | addItemsTooShort
  /-- U3: `BUF.REMOVE` with `amount < 0` or `amount > BUF.count`; raised by `execBufRemove` (safe) -/
  | removeAmountUnspecified
  /-- U5: `BUF.CREATE` with `capacity > NMAX`; raised by `execBufCreate` (safe) -/
  | capacityAboveNmax
  /-- U4: two streaming CRC commands outstanding at once; raised by `grantRequester` (safe) -/
  | overlappingStreaming
  /-- U8: hardware reset while a command is outstanding; raised by `applyInput` (safe) -/
  | resetWhileOutstanding
  /-- R150 duty (1): a requester presents a command while one of its own is outstanding; raised by `applyInput` (safe) -/
  | secondCommandOutstanding
  /-- an input names a requester the block does not serve (R123); raised by `applyInput` (safe) -/
  | noSuchRequester
  deriving DecidableEq, Repr

/-- What a step or a meaning answers. -/
abbrev Result := Host.Outcome State Fault Refusal

/-- The "Default/XModem" record (40_crc_engine.md R81), which is also the reset value of `CRC.P` (10_state.md R27). -/
def xmodemParams : CrcParams :=
  { polynomial := 0x1021#16, initialValue := 0x0000#16, finalXor := 0x0000#16, msbMask := 0x8000#16,
    outputMask := 0xFFFF#16, reflectInput := false, reflectOutput := false }

/-- The CRC unit after hardware reset (10_state.md R27, 70_reset_and_hazards.md R133). -/
def CrcUnit.afterReset : CrcUnit := { params := xmodemParams, reg := 0x0000#16 }

/-- The BUF unit after the hardware reset number `epoch`: `BUF.valid` = 0 and no slot written (R27, R133).  The spec
gives `BUF.cap` and `BUF.count` no value; they are 0 here (DESIGN CHOICE, assumption log 2). -/
def BufUnit.afterReset (epoch : Nat) : BufUnit :=
  { valid := false, cap := 0, count := 0, store := [], epoch := epoch }

/-- A requester that has done nothing yet. -/
def Requester.idle : Requester := { outstanding := none, received := [] }

/-- The block right after hardware reset, with the OPEN parameters `c`. -/
def State.resetWith (c : Config) : State :=
  { cfg := c, crc := CrcUnit.afterReset, buf := BufUnit.afterReset 0, resp := none,
    reqs := List.replicate c.nreq Requester.idle, inputs := [], draws := 0 }

/-- The machine right after reset, with the spec's example parameters (92_eei_decisions.md). -/
def State.reset : State := State.resetWith Config.standard

end Sys2Proof.Machine
end

