-- ==== Sys2Proof/Machine/Ops.lean ====
section
/-! DEFINITION. The operations every meaning is written over: updates of the state, the backing store, the CRC steps,
answering a command, and raising an error. -/

namespace Sys2Proof.Machine

open Sys2Proof

/-! ## Updates of the state -/

/-- Replaces the CRC unit. -/
def State.setCrc (s : State) (c : CrcUnit) : State := { s with crc := c }
/-- Writes `CRC.reg`. -/
def State.setReg (s : State) (r : Word) : State := { s with crc := { s.crc with reg := r } }
/-- Replaces the BUF unit. -/
def State.setBuf (s : State) (b : BufUnit) : State := { s with buf := b }
/-- Writes the response port. -/
def State.setResp (s : State) (r : Option Response) : State := { s with resp := r }
/-- Replaces the requesters. -/
def State.setReqs (s : State) (rs : List Requester) : State := { s with reqs := rs }
/-- Replaces the pending inputs. -/
def State.setInputs (s : State) (is : List Input) : State := { s with inputs := is }
/-- Writes the count of grants no input named. -/
def State.setDraws (s : State) (n : Nat) : State := { s with draws := n }

/-! ## Answering and raising -/

/-- `return v`: the command ends with status `OK`, value `v` and payload `out` (00_scope.md R8, 30_encoding.md R57). -/
def respond (v : Nat) (out : List Elem) (s : State) : Result :=
  .next (s.setResp (some { status := .ok, value := v, out := out }))

/-- `raise E`: taking an error, the one shared operation for it.  The command ends with status `E`, value 0 and an empty
payload, and no state element of either unit is written (00_scope.md R8, 60_exceptions.md R114, R116, R117).  There is
nothing to save and no return from it (R118). -/
def raise (e : ErrorKind) (s : State) : Result :=
  .next (s.setResp (some { status := .error e, value := 0, out := [] }))

/-! ## The backing store -/

/-- The canonical form of the store: the indices strictly rising, so that equal stores are equal lists.  An unlisted
slot holds a free value, which no listed element can be said to equal. -/
def Memory.wf : List (Nat × Elem) → Bool
  | [] => true
  | (i, _) :: rest => rest.all (fun x => decide (i < x.1)) && Memory.wf rest

/-- What the list holds at an index, if anything. -/
def storeFind : List (Nat × Elem) → Nat → Option Elem
  | [], _ => none
  | (j, e) :: rest, i => if j = i then some e else storeFind rest i

/-- `STORE[i] <- e` (20_memory.md R34), keeping the indices strictly rising. -/
def storeWrite : List (Nat × Elem) → Nat → Elem → List (Nat × Elem)
  | [], i, e => [(i, e)]
  | (j, x) :: rest, i, e =>
    if i < j then (i, e) :: (j, x) :: rest
    else if i = j then (i, e) :: rest
    else (j, x) :: storeWrite rest i e

/-- What an unwritten slot holds: a free `ELEM_W`-bit value (93_implementation_defined.md U7). -/
def unwrittenElem (c : Config) (epoch i : Nat) : Elem := Config.unwrittenSlot epoch i % 2 ^ c.elemW

/-- `MemRead(STORE, i, 1)` (00_scope.md R8): the element last written, or the free value of an unwritten slot. -/
def slotRead (c : Config) (epoch : Nat) (m : List (Nat × Elem)) (i : Nat) : Elem :=
  match storeFind m i with
  | some e => e
  | none => unwrittenElem c epoch i

/-- `STORE[i]` of a BUF unit. -/
def BufUnit.slot (c : Config) (b : BufUnit) (i : Nat) : Elem := slotRead c b.epoch b.store i

/-- `for k in 0 .. n-1: STORE[base + k] <- es[k]`, in increasing `k` (41_bounded_buffer.md R95). -/
def storeWriteSeq (m : List (Nat × Elem)) (base : Nat) : List Elem → List (Nat × Elem)
  | [] => m
  | e :: es => storeWriteSeq (storeWrite m base e) (base + 1) es

/-- `STORE[base .. base + n)` in increasing index (00_scope.md R7). -/
def BufUnit.slots (c : Config) (b : BufUnit) (base : Nat) : Nat → List Elem
  | 0 => []
  | n + 1 => b.slot c base :: b.slots c (base + 1) n

/-- The valid data `q = STORE[0 .. BUF.count)`, oldest first (10_state.md R22). -/
def BufUnit.contents (c : Config) (b : BufUnit) : List Elem := b.slots c 0 b.count

/-- `for i in at .. at + n - 1: STORE[i] <- STORE[i + amount]`, "increasing i, so the overlapping move is safe"
(41_bounded_buffer.md R101). -/
def storeMoveDown (c : Config) (epoch amount : Nat) (m : List (Nat × Elem)) (at_ : Nat) : Nat → List (Nat × Elem)
  | 0 => m
  | n + 1 =>
    storeMoveDown c epoch amount (storeWrite m at_ (slotRead c epoch m (at_ + amount))) (at_ + 1) n

/-- `remove_front(amount)`, for `amount ≤ BUF.count` (41_bounded_buffer.md R101). -/
def BufUnit.removeFront (c : Config) (b : BufUnit) (amount : Nat) : BufUnit :=
  let rest := b.count - amount
  if rest = 0 then { b with count := 0 }
  else { b with count := rest, store := storeMoveDown c b.epoch amount b.store 0 rest }

/-- The append loop of `BUF.ADD` with its count update (41_bounded_buffer.md R95). -/
def BufUnit.append (b : BufUnit) (es : List Elem) : BufUnit :=
  { b with count := b.count + es.length, store := storeWriteSeq b.store b.count es }

/-! ## The CRC steps -/

/-- `rev_n(v)[i] = v[n-1-i]`, "implemented generically for both widths" (40_crc_engine.md R74). -/
def revBits {n : Nat} (v : BitVec n) : BitVec n := v.reverse

/-- `rev8` (R73). -/
def rev8 (v : Byte) : Byte := revBits v

/-- `rev16` (R74). -/
def rev16 (v : Word) : Word := revBits v

/-- `trunc16(r << 1)`: bit 15 is discarded (40_crc_engine.md R75). -/
def shiftLeft1 (r : Word) : Word := r <<< 1

/-- The bit step `crc_bit(P, r, x)` (40_crc_engine.md R76). -/
def crcBit (p : CrcParams) (r : Word) (x : Bool) : Word :=
  let bit0 := r &&& p.msbMask
  let bit := if x then bit0 ^^^ p.msbMask else bit0
  if bit ≠ 0#16 then shiftLeft1 r ^^^ p.polynomial else shiftLeft1 r

/-- The bits `d[k-1], ..., d[0]` taken in that order (40_crc_engine.md R77, 20_memory.md R37). -/
def crcBits (p : CrcParams) (d : Byte) (r : Word) : Nat → Word
  | 0 => r
  | k + 1 => crcBits p d (crcBit p r (d.getLsbD k)) k

/-- The byte as the loop sees it: reversed when `reflectInput` (40_crc_engine.md R77). -/
def inputByte (p : CrcParams) (c : Byte) : Byte := if p.reflectInput then rev8 c else c

/-- The byte step `crc_byte(P, r, c)`, exactly 8 bit steps, most significant first (40_crc_engine.md R77). -/
def crcByte (p : CrcParams) (r : Word) (c : Byte) : Word := crcBits p (inputByte p c) r 8

/-- The sequence step `crc_bytes(P, r, s)`, the left fold of `crc_byte` (40_crc_engine.md R78). -/
def crcBytes (p : CrcParams) (r : Word) : List Byte → Word
  | [] => r
  | c :: cs => crcBytes p (crcByte p r c) cs

/-- The output transform `crc_out(P, r)`: reverse, then xor, then mask, and nothing at all when `reflectOutput` is
false (40_crc_engine.md R79, 90_conflicts.md C1). -/
def crcOut (p : CrcParams) (r : Word) : Word :=
  if p.reflectOutput then (rev16 r ^^^ p.finalXor) &&& p.outputMask else r

/-! ## Hardware reset -/

/-- Hardware reset of a running block: both units take their reset state and nothing else changes
(70_reset_and_hazards.md R133). -/
def hardwareReset (s : State) : State :=
  { s with crc := CrcUnit.afterReset, buf := BufUnit.afterReset (s.buf.epoch + 1) }

end Sys2Proof.Machine
end

