-- ==== Sys2Proof/Machine/Operands.lean ====
section
/-! DEFINITION. The operand forms: the parameter record a selector names, and the byte range of a one-shot CRC. -/

namespace Sys2Proof.Machine

open Sys2Proof

/-- The "Mcrf4XX" preset (40_crc_engine.md R81). -/
def mcrf4xxParams : CrcParams :=
  { polynomial := 0x1021#16, initialValue := 0xFFFF#16, finalXor := 0x0000#16, msbMask := 0x8000#16,
    outputMask := 0xFFFF#16, reflectInput := true, reflectOutput := true }

/-- The "Modbus" preset (40_crc_engine.md R81). -/
def modbusParams : CrcParams :=
  { polynomial := 0x8005#16, initialValue := 0xFFFF#16, finalXor := 0x0000#16, msbMask := 0x8000#16,
    outputMask := 0xFFFF#16, reflectInput := true, reflectOutput := true }

/-- `Psel`, the record a selector chooses (30_encoding.md R56). -/
def selParams : ParamSel → CrcParams
  | .xmodem => xmodemParams
  | .mcrf4xx => mcrf4xxParams
  | .modbus => modbusParams
  | .explicit p => p

/-- The range check of `CRC.COMPUTE` on mathematical integers: the range lies inside `DATA` (40_crc_engine.md R85). -/
def rangeInData (start length : Int) (data : List Byte) : Bool :=
  decide (0 ≤ start) && decide (0 ≤ length) && decide (start + length ≤ data.length)

/-- `DATA[start .. start+length)`, bytes in increasing index (00_scope.md R7, 20_memory.md R38). -/
def dataRange (start length : Int) (data : List Byte) : List Byte := (data.drop start.toNat).take length.toNat

/-- The first `n` elements of `ITEMS`, the only ones `BUF.ADD` reads (20_memory.md R33). -/
def firstItems (n : Int) (items : List Elem) : List Elem := items.take n.toNat

end Sys2Proof.Machine
end

