-- ==== Sys2Proof/Machine/Flags.lean ====
section
/-! DEFINITION. Status codes, predicate values, and the one flag of the block, `BUF.valid` (10_state.md R18). -/

namespace Sys2Proof.Machine

open Sys2Proof

/-- The numeric code of an error kind (60_exceptions.md R114). -/
def errorCode : ErrorKind → BitVec 3
  | .invalidArgument => 1#3
  | .indexOutOfRange => 2#3
  | .capacityExceeded => 3#3
  | .preconditionViolation => 4#3
  | .notConstructed => 5#3
  | .illegalCommand => 6#3

/-- The 3-bit `status` field of a response (30_encoding.md R57); code 7 is never produced. -/
def statusCode : Status → BitVec 3
  | .ok => 0#3
  | .error e => errorCode e

/-- `bool` as a response value: 1 for true, 0 for false (30_encoding.md R57, R58). -/
def boolValue (b : Bool) : Nat := if b then 1 else 0

/-- The check every BUF command but `BUF.CREATE` begins with: `NotConstructed` while `BUF.valid` is 0
(41_bounded_buffer.md R93), after decoding and before the command's own checks (60_exceptions.md R119). -/
def withBuffer (s : State) (k : Result) : Result := if s.buf.valid then k else raise .notConstructed s

/-- The predicate of `BUF.HASDATA` (41_bounded_buffer.md R97). -/
def hasData (b : BufUnit) : Bool := decide (0 < b.count)

/-- The predicate of `BUF.HASDATAN`, on mathematical integers (41_bounded_buffer.md R98). -/
def hasDataN (b : BufUnit) (amount : Int) : Bool := decide (amount ≤ (b.count : Int))

/-- The index check of `BUF.PEEK` (41_bounded_buffer.md R99). -/
def indexInRange (b : BufUnit) (index : Int) : Bool := decide (0 ≤ index) && decide (index < (b.count : Int))

/-- The amount check of `BUF.GETDATA` (41_bounded_buffer.md R100). -/
def amountAvailable (b : BufUnit) (amount : Int) : Bool := decide (0 < amount) && decide (amount ≤ (b.count : Int))

/-- The amounts for which `BUF.REMOVE` is defined (41_bounded_buffer.md R101). -/
def removeDefined (b : BufUnit) (amount : Int) : Bool := decide (0 ≤ amount) && decide (amount ≤ (b.count : Int))

/-- The capacity check of `BUF.ADD` on mathematical integers (41_bounded_buffer.md R95). -/
def addFits (b : BufUnit) (n : Int) : Bool := decide ((b.count : Int) + n ≤ (b.cap : Int))

end Sys2Proof.Machine
end

