-- ==== Sys2Proof/Machine/Buf.lean ====
section
/-! DEFINITION. The meanings of the nine BUF commands (41_bounded_buffer.md).  Each is one atomic step (R93). -/

namespace Sys2Proof.Machine

open Sys2Proof

/-- `BUF.CREATE capacity` (R94).  A capacity above `NMAX` is UNSPECIFIED (U5). -/
def execBufCreate (capacity : Int) (s : State) : Result :=
  if capacity < 1 then raise .invalidArgument s
  else if s.cfg.nmax < capacity.toNat then .refused .capacityAboveNmax
  else respond 0 [] (s.setBuf { s.buf with valid := true, cap := capacity.toNat, count := 0 })

/-- `BUF.ADD n` with `ITEMS` (R95).  A negative `n` (U1) and an `ITEMS` shorter than `n` (U2) are UNSPECIFIED, and are
examined before the capacity check (60_exceptions.md R119). -/
def execBufAdd (n : Int) (items : List Elem) (s : State) : Result :=
  withBuffer s <|
    if n < 0 then .refused .addNegativeCount
    else if (items.length : Int) < n then .refused .addItemsTooShort
    else if addFits s.buf n then respond 0 [] (s.setBuf (s.buf.append (firstItems n items)))
    else raise .capacityExceeded s

/-- `BUF.COUNT` (R96). -/
def execBufCount (s : State) : Result := withBuffer s <| respond s.buf.count [] s

/-- `BUF.HASDATA` (R97). -/
def execBufHasData (s : State) : Result := withBuffer s <| respond (boolValue (hasData s.buf)) [] s

/-- `BUF.HASDATAN amount` (R98). -/
def execBufHasDataN (amount : Int) (s : State) : Result :=
  withBuffer s <| respond (boolValue (hasDataN s.buf amount)) [] s

/-- `BUF.PEEK index` (R99). -/
def execBufPeek (index : Int) (s : State) : Result :=
  withBuffer s <|
    if indexInRange s.buf index then respond (s.buf.slot s.cfg index.toNat) [] s else raise .indexOutOfRange s

/-- `BUF.GETDATA amount` (R100): copy out in order, then remove; the copy is complete before anything moves. -/
def execBufGetData (amount : Int) (s : State) : Result :=
  withBuffer s <|
    if amountAvailable s.buf amount then
      respond 0 (s.buf.slots s.cfg 0 amount.toNat) (s.setBuf (s.buf.removeFront s.cfg amount.toNat))
    else raise .invalidArgument s

/-- `BUF.REMOVE amount` (R101).  Outside `0 .. BUF.count` it is UNSPECIFIED (U3). -/
def execBufRemove (amount : Int) (s : State) : Result :=
  withBuffer s <|
    if removeDefined s.buf amount then respond 0 [] (s.setBuf (s.buf.removeFront s.cfg amount.toNat))
    else .refused .removeAmountUnspecified

/-- `BUF.CLEAR` (R102): the count only; capacity, flag and backing store stay. -/
def execBufClear (s : State) : Result := withBuffer s <| respond 0 [] (s.setBuf { s.buf with count := 0 })

end Sys2Proof.Machine
end

