-- ==== Sys2Proof/Machine/Crc.lean ====
section
/-! DEFINITION. The meanings of the five CRC commands (40_crc_engine.md). -/

namespace Sys2Proof.Machine

open Sys2Proof

/-- `CRC.CREATE sel` (R80): store the record and load, not xor, the seed. -/
def execCrcCreate (sel : ParamSel) (s : State) : Result :=
  respond 0 [] (s.setCrc { params := selParams sel, reg := (selParams sel).initialValue })

/-- `CRC.RESET` (R82). -/
def execCrcReset (s : State) : Result := respond 0 [] (s.setReg s.crc.params.initialValue)

/-- `CRC.UPDATE c` (R83): no output transform. -/
def execCrcUpdate (c : Byte) (s : State) : Result := respond 0 [] (s.setReg (crcByte s.crc.params s.crc.reg c))

/-- `CRC.GETRESULT` (R84): the transform is written back to the register, and the value just written is returned. -/
def execCrcGetResult (s : State) : Result :=
  let r := crcOut s.crc.params s.crc.reg
  respond r.toNat [] (s.setReg r)

/-- `CRC.COMPUTE sel, start, length` with `DATA` (R85): a private register, no state of the block read or written, and
the zero-length case first. -/
def execCrcCompute (sel : ParamSel) (start length : Int) (data : List Byte) (s : State) : Result :=
  let p := selParams sel
  if length = 0 then respond p.initialValue.toNat [] s
  else if rangeInData start length data then
    respond (crcOut p (crcBytes p p.initialValue (dataRange start length data))).toNat [] s
  else raise .preconditionViolation s

end Sys2Proof.Machine
end

