-- ==== Sys2Proof/Machine/Dispatch.lean ====
section
/-! DEFINITION. The meaning of each command, one arm per constructor. -/

namespace Sys2Proof.Machine

open Sys2Proof

def exec (i : Instr) (s : State) : Host.Outcome State Fault Refusal :=
  match i with
  | .crcCreate sel => Sys2Proof.Machine.execCrcCreate sel s
  | .crcReset => Sys2Proof.Machine.execCrcReset s
  | .crcUpdate c => Sys2Proof.Machine.execCrcUpdate c s
  | .crcGetResult => Sys2Proof.Machine.execCrcGetResult s
  | .crcCompute sel start length data => Sys2Proof.Machine.execCrcCompute sel start length data s
  | .bufCreate capacity => Sys2Proof.Machine.execBufCreate capacity s
  | .bufAdd n items => Sys2Proof.Machine.execBufAdd n items s
  | .bufCount => Sys2Proof.Machine.execBufCount s
  | .bufHasData => Sys2Proof.Machine.execBufHasData s
  | .bufHasDataN amount => Sys2Proof.Machine.execBufHasDataN amount s
  | .bufPeek index => Sys2Proof.Machine.execBufPeek index s
  | .bufGetData amount => Sys2Proof.Machine.execBufGetData amount s
  | .bufRemove amount => Sys2Proof.Machine.execBufRemove amount s
  | .bufClear => Sys2Proof.Machine.execBufClear s

end Sys2Proof.Machine
end

