-- ==== Sys2Proof/Machine/Requesters.lean ====
section
/-! DEFINITION. The requesters around the block: what is outstanding, who is granted, and the delivery of a response. -/

namespace Sys2Proof.Machine

open Sys2Proof

/-- The command requester `r` has outstanding, if any. -/
def outstandingOf (rs : List Requester) (r : Nat) : Option Request := (rs[r]?).bind (fun q => q.outstanding)

/-- The numbers of the requesters with a command outstanding, the first of the list being number `k`. -/
def waitingFrom (k : Nat) : List Requester → List Nat
  | [] => []
  | q :: qs => if q.outstanding.isSome then k :: waitingFrom (k + 1) qs else waitingFrom (k + 1) qs

/-- The requesters waiting for a grant. -/
def waiting (rs : List Requester) : List Nat := waitingFrom 0 rs

/-- The requester's outstanding command is one of the four streaming CRC commands. -/
def holdsStreaming (q : Requester) : Bool :=
  match q.outstanding with
  | none => false
  | some c =>
    match decode c with
    | .ok i => i.streaming
    | .error _ => false

/-- A requester other than `r` has a streaming CRC command outstanding (70_reset_and_hazards.md R141). -/
def streamingElsewhere (rs : List Requester) (r : Nat) : Bool := (rs.eraseIdx r).any holdsStreaming

/-- Delivers the response in the port to requester `r` and empties the port: the requester has its response and no
command outstanding (30_encoding.md R57, 60_exceptions.md R117, R123). -/
def deliverTo (r : Nat) (s : State) : State :=
  (s.setReqs (s.reqs.modify r fun q => { outstanding := none, received := q.received ++ s.resp.toList })).setResp none

/-- Delivers what a command answered, if it answered a next state. -/
def deliver (r : Nat) : Result → Result
  | .next s => .next (deliverTo r s)
  | .fault f => .fault f
  | .refused w => .refused w

/-- Grants requester `r`: its outstanding command is decoded, executed as one atomic step and answered
(20_memory.md R45).  An illegal command is answered with `IllegalCommand` (30_encoding.md R60).  A streaming CRC command
that overlaps another requester's is UNSPECIFIED (60_exceptions.md R125, U4).  A grant to a requester with nothing
outstanding does nothing: "Neither unit ever takes a step that a requester did not command" (00_scope.md R10). -/
def grantRequester (r : Nat) (s : State) : Result :=
  match outstandingOf s.reqs r with
  | none => .next s
  | some q =>
    match decode q with
    | .error _ => deliver r (raise .illegalCommand s)
    | .ok i =>
      if i.streaming && streamingElsewhere s.reqs r then .refused .overlappingStreaming
      else deliver r (exec i s)

/-- Requester `r` presents the command `q` (60_exceptions.md R123). -/
def presentCommand (r : Nat) (q : Request) (s : State) : Result :=
  match s.reqs[r]? with
  | none => .refused .noSuchRequester
  | some rq =>
    if rq.outstanding.isSome then .refused .secondCommandOutstanding
    else .next (s.setReqs (s.reqs.set r { rq with outstanding := some q }))

/-- One input takes effect. -/
def applyInput (e : Input) (s : State) : Result :=
  match e with
  | .present r q => presentCommand r q s
  | .grant r => grantRequester r s
  | .hardReset => if (waiting s.reqs).isEmpty then .next (hardwareReset s) else .refused .resetWhileOutstanding

/-- Which requester is granted when no input says so.  Nobody waiting: nobody.  One waiting: that one.  Several: a free
choice among them (60_exceptions.md R121), by the number of grants so far that no input named. -/
def freeChoice (ws : List Nat) (draws : Nat) : Option Nat :=
  match ws with
  | [] => none
  | [r] => some r
  | r :: r' :: rs => (r :: r' :: rs)[Config.freeGrant draws % (rs.length + 2)]?

/-- What the block does when no input is pending: it grants a waiting command, or it is idle and holds its state
(70_reset_and_hazards.md R147). -/
def runUnprompted (s : State) : Result :=
  match freeChoice (waiting s.reqs) s.draws with
  | none => .next s
  | some r => grantRequester r (s.setDraws (s.draws + 1))

/-- Places a request at requester 0 as the only outstanding one of the system, whoever was waiting before. -/
def soleRequest (q : Request) : List Requester → List Requester
  | [] => [{ outstanding := some q, received := [] }]
  | r :: rs => { r with outstanding := some q } :: rs.map fun x => { x with outstanding := none }

end Sys2Proof.Machine
end

