-- ==== Sys2Proof/Machine/Step.lean ====
section
/-! DEFINITION. One step of the block with its requesters, and the placing of a command for the host's check. -/

namespace Sys2Proof.Machine

open Sys2Proof

/-- One step: the oldest pending input takes effect, or, when none is pending, the block serves a waiting command or is
idle. -/
def step (s : State) : Host.Outcome State Fault Refusal :=
  match s.inputs with
  | e :: rest => applyInput e (s.setInputs rest)
  | [] => runUnprompted s

/-- `s` with the command of `nbits` bits `w` outstanding at requester 0 and its grant as the next input, so that the
next step decodes and runs exactly it (assumption log 6).  No other requester keeps a command outstanding, since a
streaming command may not overlap another (70_reset_and_hazards.md R141). -/
def State.withFetchWord (s : State) (nbits w : Nat) : State :=
  { s with reqs := soleRequest (requestOfBits nbits w) s.reqs, inputs := .grant 0 :: s.inputs }

end Sys2Proof.Machine
end

