-- ==== Sys2Proof/Machine/Assembler.lean ====
section
/-! DEFINITION. The assembler's notation for a command, and the pseudo-commands with their expansions
(30_encoding.md R63, R64).  Notation only: no command's meaning reads this file. -/

namespace Sys2Proof.Machine

open Sys2Proof

/-- A sequence in square brackets, its elements in decimal. -/
def showSeq (es : List Nat) : String := "[" ++ ", ".intercalate (es.map Nat.repr) ++ "]"

/-- A signed operand in decimal, a negative one with `-`. -/
def showInt (n : Int) : String := if n < 0 then "-" ++ Nat.repr n.natAbs else Nat.repr n.natAbs

/-- `refin` and `refout` as `0` or `1`. -/
def showFlag (b : Bool) : String := if b then "1" else "0"

/-- The selector by name; `EXPLICIT` with its seven values: poly, init, xorout, msbmask, outmask, refin, refout. -/
def showSel : ParamSel → String
  | .xmodem => "XMODEM"
  | .mcrf4xx => "MCRF4XX"
  | .modbus => "MODBUS"
  | .explicit p =>
      ", ".intercalate ["EXPLICIT", Nat.repr p.polynomial.toNat, Nat.repr p.initialValue.toNat,
        Nat.repr p.finalXor.toNat, Nat.repr p.msbMask.toNat, Nat.repr p.outputMask.toNat,
        showFlag p.reflectInput, showFlag p.reflectOutput]

/-- A command as its line of assembler text (R63). -/
def showInstr : Instr → String
  | .crcCreate sel => "CRC.CREATE " ++ showSel sel
  | .crcReset => "CRC.RESET"
  | .crcUpdate c => "CRC.UPDATE " ++ Nat.repr c.toNat
  | .crcGetResult => "CRC.GETRESULT"
  | .crcCompute sel start length data =>
      "CRC.COMPUTE " ++ ", ".intercalate [showSel sel, showInt start, showInt length, showSeq (data.map BitVec.toNat)]
  | .bufCreate capacity => "BUF.CREATE " ++ showInt capacity
  | .bufAdd n items => "BUF.ADD " ++ ", ".intercalate [showInt n, showSeq items]
  | .bufCount => "BUF.COUNT"
  | .bufHasData => "BUF.HASDATA"
  | .bufHasDataN amount => "BUF.HASDATAN " ++ showInt amount
  | .bufPeek index => "BUF.PEEK " ++ showInt index
  | .bufGetData amount => "BUF.GETDATA " ++ showInt amount
  | .bufRemove amount => "BUF.REMOVE " ++ showInt amount
  | .bufClear => "BUF.CLEAR"

/-- The pseudo-commands (R64): other spellings of one or more commands, never a command word of their own. -/
inductive Pseudo where
  /-- `CRC.FINALIZE`, the source's other name of the operation (90_conflicts.md C5) -/
  | crcFinalize
  /-- `CRC.CREATE DEFAULT` -/
  | crcCreateDefault
  /-- `CRC.UPDATES [b0, ..., bk-1]` -/
  | crcUpdates (bytes : List Byte)
  /-- `CRC.COMPUTEALL sel, [b0, ..., bk-1]` -/
  | crcComputeAll (sel : ParamSel) (bytes : List Byte)
  /-- `BUF.ADDALL [e0, ..., ek-1]` -/
  | bufAddAll (items : List Elem)
  deriving DecidableEq, Repr

/-- What a pseudo-command expands to, in order (R64). -/
def Pseudo.expand : Pseudo → List Instr
  | .crcFinalize => [.crcGetResult]
  | .crcCreateDefault => [.crcCreate .xmodem]
  | .crcUpdates bytes => bytes.map Instr.crcUpdate
  | .crcComputeAll sel bytes => [.crcCompute sel 0 bytes.length bytes]
  | .bufAddAll items => [.bufAdd items.length items]

end Sys2Proof.Machine
end

