-- ==== Sys2Proof/Safety.lean ====
section
/-! DEFINITION. What the claims are stated in: the invariant, lists of commands, the first-in first-out queue that the
BUF unit is, the table of errors, and endless runs with a fair arbiter. -/

namespace Sys2Proof.Machine

open Sys2Proof

/-! ## The invariant -/

/-- The BUF unit is legal (10_state.md R19, R20, R21, R23): the store is canonical and lies in the backing store of
`NMAX` slots of `ELEM_W` bits, and while a buffer exists its capacity is 1 to `NMAX`, its count at most the capacity, and
every slot of the valid data has been written. -/
structure BufInv (c : Config) (b : BufUnit) : Prop where
  storeWf : Memory.wf b.store = true
  storeFits : ∀ x ∈ b.store, x.1 < c.nmax ∧ x.2 < 2 ^ c.elemW
  capLegal : b.valid = true → 1 ≤ b.cap ∧ b.cap ≤ c.nmax
  countLegal : b.valid = true → b.count ≤ b.cap
  slotsWritten : b.valid = true → ∀ i < b.count, (storeFind b.store i).isSome = true

/-- A response fits its fields, and an error response carries nothing (30_encoding.md R57, 60_exceptions.md R116). -/
def ResponseLegal (c : Config) (a : Response) : Prop :=
  a.value < 2 ^ c.valW ∧ (∀ e ∈ a.out, e < 2 ^ c.elemW) ∧ (a.status ≠ .ok → a.value = 0 ∧ a.out = [])

/-- A requester is legal: the command it has outstanding is one that can be presented (R51), and each response it was
given fits. -/
def RequesterLegal (c : Config) (q : Requester) : Prop :=
  (∀ x, q.outstanding = some x → x.wf c = true) ∧ ∀ a ∈ q.received, ResponseLegal c a

/-- A pending input is legal: the command it presents is one that can be presented. -/
def InputLegal (c : Config) : Input → Prop
  | .present _ q => q.wf c = true
  | .grant _ => True
  | .hardReset => True

/-- The invariant of the machine between steps. -/
structure Inv (s : State) : Prop where
  cfgWf : s.cfg.wf = true
  bufInv : BufInv s.cfg s.buf
  portEmpty : s.resp = none
  reqCount : s.reqs.length = s.cfg.nreq
  reqsLegal : ∀ q ∈ s.reqs, RequesterLegal s.cfg q
  inputsLegal : ∀ e ∈ s.inputs, InputLegal s.cfg e

/-! ## What a command leaves unchanged -/

/-- An `OK` response. -/
def okResponse (v : Nat) (out : List Elem) : Response := { status := .ok, value := v, out := out }

/-- An error response (60_exceptions.md R116). -/
def errorResponse (e : ErrorKind) : Response := { status := .error e, value := 0, out := [] }

/-- The command was answered with `a`, and outside the two units nothing changed. -/
def Answered (s t : State) (a : Response) : Prop :=
  t.resp = some a ∧ t.cfg = s.cfg ∧ t.reqs = s.reqs ∧ t.inputs = s.inputs ∧ t.draws = s.draws

/-- Every `STORE` slot reads as before. -/
def SlotsKept (s t : State) : Prop := ∀ i, t.buf.slot t.cfg i = s.buf.slot s.cfg i

/-- Every register of the BUF unit is unchanged. -/
def BufRegsKept (s t : State) : Prop :=
  t.buf.valid = s.buf.valid ∧ t.buf.cap = s.buf.cap ∧ t.buf.count = s.buf.count ∧ t.buf.epoch = s.buf.epoch

/-- The whole BUF unit is unchanged. -/
def BufKept (s t : State) : Prop := BufRegsKept s t ∧ SlotsKept s t

/-! ## Lists of commands -/

/-- Commands executed one after another, each seeing the state its predecessor left (20_memory.md R45). -/
def execSeq : List Instr → State → Result
  | [], s => .next s
  | i :: is, s =>
    match exec i s with
    | .next t => execSeq is t
    | .fault f => .fault f
    | .refused w => .refused w

/-- The same with the response of every command, oldest first; `none` where a command has no meaning. -/
def execTrace : List Instr → State → Option (State × List Response)
  | [], s => some (s, [])
  | i :: is, s =>
    match exec i s with
    | .next t =>
      match execTrace is t with
      | some (u, rs) => some (u, t.resp.toList ++ rs)
      | none => none
    | .fault _ => none
    | .refused _ => none

/-- The elements a command adds, given its response: the first `n` of `ITEMS` for a successful `BUF.ADD`, none
otherwise (41_bounded_buffer.md R104). -/
def addedBy (i : Instr) (a : Response) : List Elem :=
  match i, a.status with
  | .bufAdd n items, .ok => items.take n.toNat
  | _, _ => []

/-- How many elements a command removes, given its response: `amount` for a successful `BUF.GETDATA` or `BUF.REMOVE`,
none otherwise (41_bounded_buffer.md R104). -/
def removedBy (i : Instr) (a : Response) : Nat :=
  match i, a.status with
  | .bufGetData amount, .ok => amount.toNat
  | .bufRemove amount, .ok => amount.toNat
  | _, _ => 0

/-- All elements added by a list of commands with their responses, oldest first. -/
def addedTotal (is : List Instr) (rs : List Response) : List Elem := (List.zipWith addedBy is rs).flatten

/-- How many elements a list of commands with their responses removed. -/
def removedTotal (is : List Instr) (rs : List Response) : Nat := (List.zipWith removedBy is rs).sum

/-! ## The queue the BUF unit is -/

/-- "The observable state of a constructed buffer is exactly the pair (`BUF.cap`, `q`)" (10_state.md R22). -/
structure Fifo where
  cap : Nat
  q : List Elem
  deriving DecidableEq, Repr

/-- The queue of a state; none while no buffer is constructed. -/
def fifoOf (s : State) : Option Fifo :=
  if s.buf.valid then some { cap := s.buf.cap, q := s.buf.contents s.cfg } else none

/-- The queue's own step, in the words of 10_state.md R22 and of the contracts of 41_bounded_buffer.md, with no slot and
no index into a store: the next queue and the response, or `none` where the command is UNSPECIFIED or is no BUF command. -/
def fifoStep (nmax : Nat) (i : Instr) (f : Option Fifo) : Option (Option Fifo × Response) :=
  match i, f with
  | .bufCreate n, f =>
    if n < 1 then some (f, errorResponse .invalidArgument)
    else if n ≤ nmax then some (some ⟨n.toNat, []⟩, okResponse 0 [])
    else none
  | .bufAdd n items, some b =>
    if 0 ≤ n ∧ n ≤ items.length then
      if b.q.length + n ≤ b.cap then some (some ⟨b.cap, b.q ++ items.take n.toNat⟩, okResponse 0 [])
      else some (some b, errorResponse .capacityExceeded)
    else none
  | .bufCount, some b => some (some b, okResponse b.q.length [])
  | .bufHasData, some b => some (some b, okResponse (if b.q = [] then 0 else 1) [])
  | .bufHasDataN n, some b => some (some b, okResponse (if n ≤ b.q.length then 1 else 0) [])
  | .bufPeek n, some b =>
    if 0 ≤ n then
      match b.q[n.toNat]? with
      | some e => some (some b, okResponse e [])
      | none => some (some b, errorResponse .indexOutOfRange)
    else some (some b, errorResponse .indexOutOfRange)
  | .bufGetData n, some b =>
    if 0 < n ∧ n ≤ b.q.length then some (some ⟨b.cap, b.q.drop n.toNat⟩, okResponse 0 (b.q.take n.toNat))
    else some (some b, errorResponse .invalidArgument)
  | .bufRemove n, some b =>
    if 0 ≤ n ∧ n ≤ b.q.length then some (some ⟨b.cap, b.q.drop n.toNat⟩, okResponse 0 []) else none
  | .bufClear, some b => some (some ⟨b.cap, []⟩, okResponse 0 [])
  | .bufAdd _ _, none => some (none, errorResponse .notConstructed)
  | .bufCount, none => some (none, errorResponse .notConstructed)
  | .bufHasData, none => some (none, errorResponse .notConstructed)
  | .bufHasDataN _, none => some (none, errorResponse .notConstructed)
  | .bufPeek _, none => some (none, errorResponse .notConstructed)
  | .bufGetData _, none => some (none, errorResponse .notConstructed)
  | .bufRemove _, none => some (none, errorResponse .notConstructed)
  | .bufClear, none => some (none, errorResponse .notConstructed)
  | .crcCreate _, _ => none
  | .crcReset, _ => none
  | .crcUpdate _, _ => none
  | .crcGetResult, _ => none
  | .crcCompute _ _ _ _, _ => none

/-! ## The table of errors -/

/-- Which decoded command can raise which error, complete (60_exceptions.md R115).  `IllegalCommand` is the decoder's. -/
def canRaise (m : Mnemonic) (e : ErrorKind) : Bool :=
  match m, e with
  | .crcCompute, .preconditionViolation => true
  | .bufCreate, .invalidArgument => true
  | .bufAdd, .capacityExceeded => true
  | .bufPeek, .indexOutOfRange => true
  | .bufGetData, .invalidArgument => true
  | .bufAdd, .notConstructed => true
  | .bufCount, .notConstructed => true
  | .bufHasData, .notConstructed => true
  | .bufHasDataN, .notConstructed => true
  | .bufPeek, .notConstructed => true
  | .bufGetData, .notConstructed => true
  | .bufRemove, .notConstructed => true
  | .bufClear, .notConstructed => true
  | _, _ => false

/-! ## Runs -/

/-- Two steps, one after the other. -/
def twoSteps (s : State) : Result :=
  match step s with
  | .next t => step t
  | .fault f => .fault f
  | .refused w => .refused w

/-- The state a step starts from when the outside adds `new` inputs first. -/
def prompted (s : State) (new : List Input) : State := s.setInputs (s.inputs ++ new)

/-- An endless run: before each step the outside adds inputs, and the step takes the machine on. -/
def Run (tr : Nat → State) (new : Nat → List Input) : Prop :=
  ∀ k, step (prompted (tr k) (new k)) = .next (tr (k + 1))

/-- The step from `s` grants requester `r`. -/
def grantsNow (r : Nat) (s : State) : Prop :=
  s.inputs.head? = some (.grant r) ∨ (s.inputs = [] ∧ freeChoice (waiting s.reqs) s.draws = some r)

/-- The command's grant is the BUF lock's (60_exceptions.md R126): its word names the BUF unit.  DESIGN CHOICE (assumption
log 16): an ILLEGAL word of unit 0x1 waits for the lock too, and one of units 0x2 to 0xF does not; the spec does not say
whether the decoder answers an illegal word without the lock. -/
def needsLock (q : Request) : Bool := unitField q.cw == 1#4

/-- Other requesters compete with `r` for the lock for ever (70_reset_and_hazards.md R150): after every instant there is one
at which another requester has a command outstanding that needs the lock.  That being outstanding is what competing means
is a DESIGN CHOICE (assumption log 16). -/
def CompetesForEver (tr : Nat → State) (r : Nat) : Prop :=
  ∀ k, ∃ j r' q, k ≤ j ∧ r' ≠ r ∧ outstandingOf (tr j).reqs r' = some q ∧ needsLock q = true

/-- A command `q` of requester `r` that waits without end is owed a grant: it does not need the lock (DEDUCED, assumption
log 12), or the arbiter is weakly fair, the parameter `FAIR` (60_exceptions.md R126), or the others do not compete for ever
("for BUF commands the grant itself needs `FAIR` only when other requesters compete for ever",
70_reset_and_hazards.md R150). -/
def GrantOwed (tr : Nat → State) (r : Nat) (q : Request) : Prop :=
  needsLock q = false ∨ (tr 0).cfg.fair = true ∨ ¬ CompetesForEver tr r

/-- A run in which every grant that is owed is made: a command that waits without end and is owed a grant is granted. -/
def GrantsDue (tr : Nat → State) (new : Nat → List Input) : Prop :=
  ∀ r k q, (∀ j, k ≤ j → outstandingOf (tr j).reqs r = some q) → GrantOwed tr r q →
    ∃ j, k ≤ j ∧ grantsNow r (prompted (tr j) (new j))

/-- The responses requester `r` has been given. -/
def receivedBy (s : State) (r : Nat) : List Response :=
  match s.reqs[r]? with
  | some q => q.received
  | none => []

end Sys2Proof.Machine
end

