-- ==== Sys2Proof/Certificates/Slice0/Obligations.lean ====
section
/-! DEFINITION. The statements for the provers. -/

open Sys2Proof Sys2Proof.Machine

/-! ## Reset -/

/-- 10_state.md R27, 70_reset_and_hazards.md R133: after hardware reset the CRC unit is a freshly constructed XModem
engine and no buffer exists, whatever the OPEN parameters.  The values of `BUF.cap`, `BUF.count` and `STORE`, which the
spec leaves unspecified, are not stated.  That the model's one `State.reset` has the example parameters is the model's
choice (assumption log 1). -/
def Obligations.ResetLeavesXmodemEngineAndNoBuffer : Prop :=
  (∀ c : Config,
    (State.resetWith c).crc.params.polynomial = 0x1021#16 ∧
    (State.resetWith c).crc.params.initialValue = 0x0000#16 ∧
    (State.resetWith c).crc.params.finalXor = 0x0000#16 ∧
    (State.resetWith c).crc.params.msbMask = 0x8000#16 ∧
    (State.resetWith c).crc.params.outputMask = 0xFFFF#16 ∧
    (State.resetWith c).crc.params.reflectInput = false ∧
    (State.resetWith c).crc.params.reflectOutput = false ∧
    (State.resetWith c).crc.reg = 0x0000#16 ∧
    (State.resetWith c).buf.valid = false ∧
    (State.resetWith c).cfg = c) ∧
  State.reset = State.resetWith { elemW := 8, nmax := 2 ^ 23 - 1, nreq := 1, fair := false }

/-- 70_reset_and_hazards.md R133, R150 duty (5), 93_implementation_defined.md U8: hardware reset between commands puts
both units into the reset state and does nothing else; while a command is outstanding it has no meaning. -/
def Obligations.HardwareResetResetsBothUnitsOnly : Prop :=
  ∀ (s : State) (rest : List Input), s.inputs = .hardReset :: rest →
    ((∀ r, outstandingOf s.reqs r = none) →
      ∃ t, step s = .next t ∧
        t.crc.params = ⟨0x1021#16, 0x0000#16, 0x0000#16, 0x8000#16, 0xFFFF#16, false, false⟩ ∧
        t.crc.reg = 0x0000#16 ∧ t.buf.valid = false ∧
        t.cfg = s.cfg ∧ t.reqs = s.reqs ∧ t.inputs = rest ∧ t.resp = s.resp ∧ t.draws = s.draws) ∧
    (∀ r q, outstandingOf s.reqs r = some q → step s = .refused .resetWhileOutstanding)

/-! ## The CRC commands -/

/-- 40_crc_engine.md R80, R81, 30_encoding.md R56: `CRC.CREATE` stores all seven fields of the selected record and loads
the seed; nothing else changes. -/
def Obligations.CrcCreateStoresRecordAndLoadsSeed : Prop :=
  ∀ (sel : ParamSel) (s : State),
    ∃ t, exec (.crcCreate sel) s = .next t ∧
      (sel = .xmodem → t.crc = ⟨⟨0x1021#16, 0x0000#16, 0x0000#16, 0x8000#16, 0xFFFF#16, false, false⟩, 0x0000#16⟩) ∧
      (sel = .mcrf4xx → t.crc = ⟨⟨0x1021#16, 0xFFFF#16, 0x0000#16, 0x8000#16, 0xFFFF#16, true, true⟩, 0xFFFF#16⟩) ∧
      (sel = .modbus → t.crc = ⟨⟨0x8005#16, 0xFFFF#16, 0x0000#16, 0x8000#16, 0xFFFF#16, true, true⟩, 0xFFFF#16⟩) ∧
      (∀ p, sel = .explicit p → t.crc = ⟨p, p.initialValue⟩) ∧
      Answered s t (okResponse 0 []) ∧ BufKept s t

/-- 40_crc_engine.md R82: `CRC.RESET` returns the register to the seed; nothing else changes. -/
def Obligations.CrcResetLoadsSeed : Prop :=
  ∀ s : State, ∃ t, exec .crcReset s = .next t ∧
    t.crc.reg = s.crc.params.initialValue ∧ t.crc.params = s.crc.params ∧
    Answered s t (okResponse 0 []) ∧ BufKept s t

/-- 40_crc_engine.md R83 with R77: `CRC.UPDATE` takes eight bit steps on the optionally reversed byte, most significant
bit first, with no output transform; nothing but the register changes. -/
def Obligations.CrcUpdateAbsorbsOneByte : Prop :=
  ∀ (c : Byte) (s : State), ∃ t, exec (.crcUpdate c) s = .next t ∧
    t.crc.reg = [7, 6, 5, 4, 3, 2, 1, 0].foldl
      (fun r k => crcBit s.crc.params r ((if s.crc.params.reflectInput then rev8 c else c).getLsbD k)) s.crc.reg ∧
    t.crc.params = s.crc.params ∧ Answered s t (okResponse 0 []) ∧ BufKept s t

/-- 40_crc_engine.md R84 with R79: `CRC.GETRESULT` writes the transform back and returns it; with `reflectOutput` false
it returns the raw register and changes nothing. -/
def Obligations.CrcGetResultWritesBackTheTransform : Prop :=
  ∀ s : State, ∃ t, exec .crcGetResult s = .next t ∧
    (s.crc.params.reflectOutput = true →
      t.crc.reg = (rev16 s.crc.reg ^^^ s.crc.params.finalXor) &&& s.crc.params.outputMask) ∧
    (s.crc.params.reflectOutput = false → t.crc.reg = s.crc.reg) ∧
    t.crc.params = s.crc.params ∧ Answered s t (okResponse t.crc.reg.toNat []) ∧ BufKept s t

/-- 40_crc_engine.md R85: `CRC.COMPUTE` answers the seed for a zero length, the transformed CRC of `DATA[start ..
start+length)` for a range inside `DATA`, and `PreconditionViolation` otherwise; no state of the block is written. -/
def Obligations.CrcComputeAnswersItsRangeAndWritesNothing : Prop :=
  ∀ (sel : ParamSel) (start length : Int) (data : List Byte) (s : State),
    ∃ t a, exec (.crcCompute sel start length data) s = .next t ∧ Answered s t a ∧ t.crc = s.crc ∧ BufKept s t ∧
      (length = 0 → a = okResponse (selParams sel).initialValue.toNat []) ∧
      (length ≠ 0 → (start < 0 ∨ length < 0 ∨ start + length > data.length) →
        a = errorResponse .preconditionViolation) ∧
      (length ≠ 0 → 0 ≤ start → 0 ≤ length → start + length ≤ data.length →
        a = okResponse (crcOut (selParams sel) (((data.drop start.toNat).take length.toNat).foldl
          (crcByte (selParams sel)) (selParams sel).initialValue)).toNat [])

/-! ## The CRC algorithm -/

/-- 40_crc_engine.md R73, R74: bit `i` of the reversal is bit `n-1-i`, at every width. -/
def Obligations.ReversalMirrorsBitPositions : Prop :=
  (∀ (n : Nat) (v : BitVec n) (i : Nat), i < n → (revBits v).getLsbD i = v.getLsbD (n - 1 - i)) ∧
  (∀ v : Byte, rev8 v = revBits v) ∧ (∀ v : Word, rev16 v = revBits v) ∧
  (∀ v : Byte, rev8 (rev8 v) = v) ∧ (∀ v : Word, rev16 (rev16 v) = v) ∧
  (∀ x y : Word, rev16 (x ^^^ y) = rev16 x ^^^ rev16 y)

/-- 40_crc_engine.md R75, R76: the shift drops bit 15 and brings in 0, and the polynomial is xored in exactly when a bit
of the register under `msbMask` differs from the input bit; with `msbMask` = 0x8000, when `r[15] ^ x` = 1. -/
def Obligations.BitStepFeedsBackUnderTheMask : Prop :=
  (∀ (r : Word) (i : Nat), i < 15 → (shiftLeft1 r).getLsbD (i + 1) = r.getLsbD i) ∧
  (∀ r : Word, (shiftLeft1 r).getLsbD 0 = false) ∧
  (∀ (p : CrcParams) (r : Word) (x : Bool),
    (((if x then ~~~r else r) &&& p.msbMask) ≠ 0#16 → crcBit p r x = shiftLeft1 r ^^^ p.polynomial) ∧
    (((if x then ~~~r else r) &&& p.msbMask) = 0#16 → crcBit p r x = shiftLeft1 r)) ∧
  (∀ (p : CrcParams) (r : Word) (x : Bool), p.msbMask = 0x8000#16 →
    crcBit p r x = if (r.getLsbD 15) ^^ x then shiftLeft1 r ^^^ p.polynomial else shiftLeft1 r)

/-- 40_crc_engine.md R78: the sequence step over a concatenation is the second part continued from the first, and over
one byte it is the byte step. -/
def Obligations.SequenceStepContinues : Prop :=
  ∀ (p : CrcParams) (r : Word),
    crcBytes p r [] = r ∧ (∀ c, crcBytes p r [c] = crcByte p r c) ∧
    (∀ a b : List Byte, crcBytes p r (a ++ b) = crcBytes p (crcBytes p r a) b)

/-- 40_crc_engine.md R79, 90_conflicts.md C1: reverse, then xor, then mask when `reflectOutput`; otherwise nothing, so
that `finalXor` and `outputMask` have no effect at all. -/
def Obligations.OutputTransformOnlyWhenReflecting : Prop :=
  (∀ (p : CrcParams) (r : Word), p.reflectOutput = true → crcOut p r = (rev16 r ^^^ p.finalXor) &&& p.outputMask) ∧
  (∀ (p : CrcParams) (r x m : Word), p.reflectOutput = false →
    crcOut p r = r ∧ crcOut { p with finalXor := x, outputMask := m } r = r)

/-- 40_crc_engine.md R86: a message streamed after `CRC.CREATE`, or after `CRC.RESET` of an engine with the same record,
answers `crc_out(P, crc_bytes(P, initialValue, s))`, and so does `CRC.COMPUTE` for a message of at least one byte.  For the
empty message `CRC.COMPUTE` answers the seed, which with the three presets is the streamed answer too. -/
def Obligations.StreamingEqualsBatch : Prop :=
  ∀ (sel : ParamSel) (msg : List Byte) (s : State),
    ∃ t u, execSeq ([Instr.crcCreate sel] ++ msg.map Instr.crcUpdate ++ [Instr.crcGetResult]) s = .next t ∧
      exec (.crcCompute sel 0 msg.length msg) s = .next u ∧
      t.resp = some (okResponse
        (crcOut (selParams sel) (crcBytes (selParams sel) (selParams sel).initialValue msg)).toNat []) ∧
      (s.crc.params = selParams sel →
        ∃ v, execSeq ([Instr.crcReset] ++ msg.map Instr.crcUpdate ++ [Instr.crcGetResult]) s = .next v ∧
          v.resp = t.resp) ∧
      (msg ≠ [] → u.resp = t.resp) ∧
      (msg = [] → u.resp = some (okResponse (selParams sel).initialValue.toNat [])) ∧
      (sel = .xmodem ∨ sel = .mcrf4xx ∨ sel = .modbus → u.resp = t.resp)

/-- 40_crc_engine.md R87: a zero-length `CRC.COMPUTE` answers the seed exactly, for any `start` and any `DATA`. -/
def Obligations.ZeroLengthComputeAnswersTheSeed : Prop :=
  ∀ (sel : ParamSel) (start : Int) (data : List Byte) (s : State),
    ∃ t, exec (.crcCompute sel start 0 data) s = .next t ∧
      t.resp = some (okResponse (selParams sel).initialValue.toNat [])

/-- 40_crc_engine.md R90: repeated `CRC.GETRESULT` with `reflectOutput` true answers `crc_out` of the previous answer;
with `outputMask` = 0xFFFF the second is `r0 ^ rev16(finalXor) ^ finalXor`, so that a palindromic `finalXor` brings back
the raw register and then the first answer again. -/
def Obligations.RepeatedGetResultTransformsItsLastAnswer : Prop :=
  ∀ s : State, s.crc.params.reflectOutput = true →
    ∃ t1 t2 t3, exec .crcGetResult s = .next t1 ∧ exec .crcGetResult t1 = .next t2 ∧ exec .crcGetResult t2 = .next t3 ∧
      t1.crc.reg = crcOut s.crc.params s.crc.reg ∧ t2.crc.reg = crcOut s.crc.params t1.crc.reg ∧
      t3.crc.reg = crcOut s.crc.params t2.crc.reg ∧
      t1.resp = some (okResponse t1.crc.reg.toNat []) ∧ t2.resp = some (okResponse t2.crc.reg.toNat []) ∧
      t3.resp = some (okResponse t3.crc.reg.toNat []) ∧
      (s.crc.params.outputMask = 0xFFFF#16 →
        t2.crc.reg = s.crc.reg ^^^ rev16 s.crc.params.finalXor ^^^ s.crc.params.finalXor) ∧
      (s.crc.params.outputMask = 0xFFFF#16 → rev16 s.crc.params.finalXor = s.crc.params.finalXor →
        t2.crc.reg = s.crc.reg ∧ t3.crc.reg = t1.crc.reg)

/-- 40_crc_engine.md R88: with `msbMask` = 0 the polynomial is never xored in and each byte shifts the register left by
8, whatever the byte and the reflection. -/
def Obligations.ZeroMsbMaskOnlyShifts : Prop :=
  ∀ (p : CrcParams) (r : Word) (c : Byte), p.msbMask = 0#16 → crcByte p r c = r <<< 8

/-- 95_test_vectors.md E1, E2, E3: the three known answers of the source. -/
def Obligations.SourceKnownAnswers : Prop :=
  ∀ s : State,
    exec (.crcCompute .xmodem 0 3 [0xAB, 0xCD, 0xEF]) s = .next (s.setResp (some (okResponse 0x21A4 []))) ∧
    exec (.crcCompute .xmodem 0 7 [0xAB, 0xCD, 0xEF, 0x12, 0x34, 0x56, 0x78]) s =
      .next (s.setResp (some (okResponse 0x948A []))) ∧
    exec (.crcCompute .xmodem 0 11 [0x48, 0x65, 0x6C, 0x6C, 0x6F, 0x20, 0x57, 0x6F, 0x72, 0x6C, 0x64]) s =
      .next (s.setResp (some (okResponse 0x992A [])))

/-! ## The BUF commands -/

/-- 41_bounded_buffer.md R94: a capacity of 1 to `NMAX` constructs an empty buffer and writes no slot; below 1 is
`InvalidArgument` and changes nothing; above `NMAX` the model stops (U5). -/
def Obligations.BufCreateConstructsOrRejects : Prop :=
  ∀ (n : Int) (s : State),
    (1 ≤ n → n ≤ s.cfg.nmax →
      ∃ t, exec (.bufCreate n) s = .next t ∧ t.buf.valid = true ∧ (t.buf.cap : Int) = n ∧ t.buf.count = 0 ∧
        t.crc = s.crc ∧ SlotsKept s t ∧ Answered s t (okResponse 0 [])) ∧
    (n < 1 →
      ∃ t, exec (.bufCreate n) s = .next t ∧ t.crc = s.crc ∧ BufKept s t ∧
        Answered s t (errorResponse .invalidArgument)) ∧
    ((s.cfg.nmax : Int) < n → 1 ≤ n → exec (.bufCreate n) s = .refused .capacityAboveNmax)

/-- 41_bounded_buffer.md R95: `BUF.ADD` appends the first `n` elements of `ITEMS` behind the valid data, slot by slot,
or, where they do not fit, changes nothing and answers `CapacityExceeded`. -/
def Obligations.BufAddAppendsOrRejectsWhole : Prop :=
  ∀ (n : Int) (items : List Elem) (s : State), s.buf.valid = true → 0 ≤ n → n ≤ items.length →
    ((s.buf.count : Int) + n ≤ s.buf.cap →
      ∃ t, exec (.bufAdd n items) s = .next t ∧ (t.buf.count : Int) = s.buf.count + n ∧
        t.buf.contents t.cfg = s.buf.contents s.cfg ++ items.take n.toNat ∧
        (∀ k : Nat, (k : Int) < n → items[k]? = some (t.buf.slot t.cfg (s.buf.count + k))) ∧
        (∀ j, (j < s.buf.count ∨ s.buf.count + n.toNat ≤ j) → t.buf.slot t.cfg j = s.buf.slot s.cfg j) ∧
        t.buf.valid = true ∧ t.buf.cap = s.buf.cap ∧ t.crc = s.crc ∧ Answered s t (okResponse 0 [])) ∧
    ((s.buf.cap : Int) < s.buf.count + n →
      ∃ t, exec (.bufAdd n items) s = .next t ∧ t.crc = s.crc ∧ BufKept s t ∧
        Answered s t (errorResponse .capacityExceeded))

/-- 41_bounded_buffer.md R96, R97, R98: the three questions answer the count, whether it is positive, and whether it is
at least `amount` for any integer `amount`; they change nothing. -/
def Obligations.BufQuestionsAnswerAndChangeNothing : Prop :=
  ∀ s : State, s.buf.valid = true →
    (∃ t, exec .bufCount s = .next t ∧ t.crc = s.crc ∧ BufKept s t ∧ Answered s t (okResponse s.buf.count [])) ∧
    (∃ t, exec .bufHasData s = .next t ∧ t.crc = s.crc ∧ BufKept s t ∧
      Answered s t (okResponse (if 0 < s.buf.count then 1 else 0) [])) ∧
    (∀ amount : Int, ∃ t, exec (.bufHasDataN amount) s = .next t ∧ t.crc = s.crc ∧ BufKept s t ∧
      Answered s t (okResponse (if (s.buf.count : Int) ≥ amount then 1 else 0) []))

/-- 41_bounded_buffer.md R99: `BUF.PEEK` answers the element of the valid data at `index`, or `IndexOutOfRange`, and
changes nothing. -/
def Obligations.BufPeekReadsOneElement : Prop :=
  ∀ (index : Int) (s : State), s.buf.valid = true →
    (0 ≤ index → index < s.buf.count →
      ∃ t e, exec (.bufPeek index) s = .next t ∧ (s.buf.contents s.cfg)[index.toNat]? = some e ∧
        t.crc = s.crc ∧ BufKept s t ∧ Answered s t (okResponse e [])) ∧
    ((index < 0 ∨ (s.buf.count : Int) ≤ index) →
      ∃ t, exec (.bufPeek index) s = .next t ∧ t.crc = s.crc ∧ BufKept s t ∧
        Answered s t (errorResponse .indexOutOfRange))

/-- 41_bounded_buffer.md R100: `BUF.GETDATA` answers the first `amount` elements in order and removes them, the rest
compacted to the front; otherwise `InvalidArgument` and nothing changes. -/
def Obligations.BufGetDataCopiesOutThenRemoves : Prop :=
  ∀ (amount : Int) (s : State), s.buf.valid = true →
    (0 < amount → amount ≤ s.buf.count →
      ∃ t, exec (.bufGetData amount) s = .next t ∧
        Answered s t (okResponse 0 ((s.buf.contents s.cfg).take amount.toNat)) ∧
        t.buf.contents t.cfg = (s.buf.contents s.cfg).drop amount.toNat ∧
        (t.buf.count : Int) = s.buf.count - amount ∧
        (∀ j, j < s.buf.count - amount.toNat → t.buf.slot t.cfg j = s.buf.slot s.cfg (j + amount.toNat)) ∧
        (∀ j, s.buf.count - amount.toNat ≤ j → t.buf.slot t.cfg j = s.buf.slot s.cfg j) ∧
        t.buf.valid = true ∧ t.buf.cap = s.buf.cap ∧ t.crc = s.crc) ∧
    ((amount ≤ 0 ∨ (s.buf.count : Int) < amount) →
      ∃ t, exec (.bufGetData amount) s = .next t ∧ t.crc = s.crc ∧ BufKept s t ∧
        Answered s t (errorResponse .invalidArgument))

/-- 41_bounded_buffer.md R101: `BUF.REMOVE` discards the first `amount` elements and compacts the rest, writing exactly
the slots the rest comes to occupy, none when nothing remains; outside `0 .. BUF.count` the model stops (U3). -/
def Obligations.BufRemoveDiscardsAndCompacts : Prop :=
  ∀ (amount : Int) (s : State), s.buf.valid = true →
    (0 ≤ amount → amount ≤ s.buf.count →
      ∃ t, exec (.bufRemove amount) s = .next t ∧ Answered s t (okResponse 0 []) ∧
        t.buf.contents t.cfg = (s.buf.contents s.cfg).drop amount.toNat ∧
        (t.buf.count : Int) = s.buf.count - amount ∧
        (∀ j, j < s.buf.count - amount.toNat → t.buf.slot t.cfg j = s.buf.slot s.cfg (j + amount.toNat)) ∧
        (∀ j, s.buf.count - amount.toNat ≤ j → t.buf.slot t.cfg j = s.buf.slot s.cfg j) ∧
        t.buf.valid = true ∧ t.buf.cap = s.buf.cap ∧ t.crc = s.crc) ∧
    ((amount < 0 ∨ (s.buf.count : Int) < amount) → exec (.bufRemove amount) s = .refused .removeAmountUnspecified)

/-- 41_bounded_buffer.md R102: `BUF.CLEAR` resets the count and nothing else. -/
def Obligations.BufClearResetsTheCountOnly : Prop :=
  ∀ s : State, s.buf.valid = true →
    ∃ t, exec .bufClear s = .next t ∧ t.buf.count = 0 ∧ t.buf.contents t.cfg = [] ∧
      t.buf.valid = true ∧ t.buf.cap = s.buf.cap ∧ SlotsKept s t ∧ t.crc = s.crc ∧ Answered s t (okResponse 0 [])

/-- 41_bounded_buffer.md R93, 60_exceptions.md R119: while no buffer is constructed every BUF command but `BUF.CREATE`
answers `NotConstructed`, before any check of its own, and changes nothing. -/
def Obligations.BufCommandsNeedABuffer : Prop :=
  ∀ (i : Instr) (s : State), i.isBuf = true → (∀ n, i ≠ .bufCreate n) → s.buf.valid = false →
    ∃ t, exec i s = .next t ∧ t.crc = s.crc ∧ BufKept s t ∧ Answered s t (errorResponse .notConstructed)

/-- 41_bounded_buffer.md R95, 60_exceptions.md R119, 93_implementation_defined.md U1, U2: on a constructed buffer a
`BUF.ADD` with a negative count, or with fewer items than its count, has no meaning, even where it would also overflow. -/
def Obligations.BufAddWithoutItsItemsStops : Prop :=
  ∀ (n : Int) (items : List Elem) (s : State), s.buf.valid = true →
    (n < 0 → exec (.bufAdd n items) s = .refused .addNegativeCount) ∧
    ((items.length : Int) < n → exec (.bufAdd n items) s = .refused .addItemsTooShort)

/-- 10_state.md R22, 41_bounded_buffer.md R94 to R102, R108: the BUF unit is the bounded queue (`cap`, `q`).  Every BUF
command, in every state, takes the queue of the state to the queue of `fifoStep` with the response of `fifoStep`, and
stops exactly where `fifoStep` gives the command no meaning: nothing observable depends on the layout of `STORE`. -/
def Obligations.BufUnitIsABoundedQueue : Prop :=
  ∀ (i : Instr) (s : State), i.isBuf = true →
    match fifoStep s.cfg.nmax i (fifoOf s) with
    | some (f, a) => ∃ t, exec i s = .next t ∧ fifoOf t = f ∧ Answered s t a ∧ t.crc = s.crc
    | none => ∃ w, exec i s = .refused w

/-- 41_bounded_buffer.md R106: if `BUF.PEEK i` answers (OK, v, []) then `BUF.GETDATA i+1` in the same state answers with
`v` as the last element of `OUT`. -/
def Obligations.PeekAgreesWithGetData : Prop :=
  ∀ (i : Int) (s t : State) (v : Nat), exec (.bufPeek i) s = .next t → t.resp = some (okResponse v []) →
    ∃ u out, exec (.bufGetData (i + 1)) s = .next u ∧ u.resp = some (okResponse 0 out) ∧
      out[i.toNat]? = some v ∧ out.getLast? = some v

/-- 41_bounded_buffer.md R107: a buffer of capacity `C` filled with `C` elements gives them back in order and is empty;
`construct(0)` and `construct(-1)` fail, and `construct(1)` accepts exactly one `addData` of size 1. -/
def Obligations.FilledBufferDrainsInOrder : Prop :=
  (∀ (es : List Elem) (s : State), 1 ≤ es.length → es.length ≤ s.cfg.nmax →
    ∃ t u v, exec (.bufCreate es.length) s = .next t ∧ exec (.bufAdd es.length es) t = .next u ∧
      u.resp = some (okResponse 0 []) ∧
      exec (.bufGetData es.length) u = .next v ∧ v.resp = some (okResponse 0 es) ∧ v.buf.count = 0) ∧
  (∀ s : State, (∃ t, exec (.bufCreate 0) s = .next t ∧ t.resp = some (errorResponse .invalidArgument)) ∧
    (∃ t, exec (.bufCreate (-1)) s = .next t ∧ t.resp = some (errorResponse .invalidArgument))) ∧
  (∀ (e e' : Elem) (s : State), 1 ≤ s.cfg.nmax →
    ∃ t u v, exec (.bufCreate 1) s = .next t ∧ t.resp = some (okResponse 0 []) ∧
      exec (.bufAdd 1 [e]) t = .next u ∧ u.resp = some (okResponse 0 []) ∧
      exec (.bufAdd 1 [e']) u = .next v ∧ v.resp = some (errorResponse .capacityExceeded))

/-- 41_bounded_buffer.md R105: two successful `BUF.GETDATA` in a row take disjoint, consecutive parts of the valid data,
so no element is answered twice. -/
def Obligations.SuccessiveGetDataNeverRepeats : Prop :=
  ∀ (a b : Int) (s t u : State) (o1 o2 : List Elem),
    exec (.bufGetData a) s = .next t → t.resp = some (okResponse 0 o1) →
    exec (.bufGetData b) t = .next u → u.resp = some (okResponse 0 o2) →
    s.buf.contents s.cfg = o1 ++ o2 ++ u.buf.contents u.cfg

/-- 41_bounded_buffer.md R104: over any sequence of commands without a successful `BUF.CREATE` and without `BUF.CLEAR`,
the valid data is, in order, exactly what was there and was added, less what was removed from the front, and `BUF.count`
is total added minus total removed; commands that answer an error contribute nothing. -/
def Obligations.CountIsAddedMinusRemoved : Prop :=
  ∀ (is : List Instr) (s u : State) (rs : List Response),
    (∀ i ∈ is, (∀ n, i = .bufCreate n → n < 1) ∧ i ≠ .bufClear) →
    execTrace is s = some (u, rs) →
    u.buf.contents u.cfg = (s.buf.contents s.cfg ++ addedTotal is rs).drop (removedTotal is rs) ∧
    u.buf.count + removedTotal is rs = s.buf.count + (addedTotal is rs).length

/-! ## Errors -/

/-- 60_exceptions.md R116: on any error response every state element of both units has the value it had before, the value
is 0 and the payload empty: for every decoded command, and for every granted request, an illegal one included. -/
def Obligations.ErrorsChangeNothing : Prop :=
  (∀ (i : Instr) (s t : State) (a : Response), exec i s = .next t → t.resp = some a → a.status ≠ .ok →
    t = s.setResp (some a) ∧ a.value = 0 ∧ a.out = []) ∧
  (∀ (s t : State) (r : Nat) (q : Request) (a : Response), grantsNow r s → outstandingOf s.reqs r = some q →
    step s = .next t → receivedBy t r = receivedBy s r ++ [a] → a.status ≠ .ok →
    t.crc = s.crc ∧ t.buf = s.buf ∧ a.value = 0 ∧ a.out = [])

/-- 60_exceptions.md R115: the table of which command can raise which status is complete, and every "yes" of it can
happen; `IllegalCommand` comes from the decoder alone, and every one of the 14 opcodes has an illegal word. -/
def Obligations.ErrorTableIsComplete : Prop :=
  (∀ (i : Instr) (s t : State) (e : ErrorKind) (v : Nat) (out : List Elem),
    exec i s = .next t → t.resp = some ⟨.error e, v, out⟩ → canRaise i.mnemonic e = true) ∧
  (∀ (m : Mnemonic) (e : ErrorKind), canRaise m e = true →
    ∃ (i : Instr) (s t : State), i.mnemonic = m ∧ exec i s = .next t ∧ t.resp = some (errorResponse e)) ∧
  (∀ m : Mnemonic, ∃ q : Request, opField q.cw = opcode m ∧ ∃ why, decode q = .error why)

/-- 60_exceptions.md R118: the command after a failed one is executed exactly as if the failed one had never been
issued. -/
def Obligations.FailedCommandLeavesNoTrace : Prop :=
  ∀ (i j : Instr) (s t : State) (a : Response), exec i s = .next t → t.resp = some a → a.status ≠ .ok →
    exec j t = exec j s

/-- 60_exceptions.md R114: the numeric codes of the statuses, distinct, and 7 never produced. -/
def Obligations.StatusCodesAreTheTables : Prop :=
  statusCode .ok = 0#3 ∧ statusCode (.error .invalidArgument) = 1#3 ∧ statusCode (.error .indexOutOfRange) = 2#3 ∧
  statusCode (.error .capacityExceeded) = 3#3 ∧ statusCode (.error .preconditionViolation) = 4#3 ∧
  statusCode (.error .notConstructed) = 5#3 ∧ statusCode (.error .illegalCommand) = 6#3 ∧
  ∀ x : Status, statusCode x ≠ 7#3

/-! ## The two units and the lifetime of their state -/

/-- 00_scope.md R2, 40_crc_engine.md R89: the units share no state.  A BUF command neither reads nor writes the CRC unit,
and a CRC command neither reads nor writes the BUF unit: replacing the other unit beforehand or afterwards is the same. -/
def Obligations.UnitsShareNoState : Prop :=
  (∀ (i : Instr) (s : State) (c : CrcUnit), i.isBuf = true →
    (∀ t, exec i s = .next t → exec i (s.setCrc c) = .next (t.setCrc c) ∧ t.crc = s.crc) ∧
    (∀ w, exec i s = .refused w → exec i (s.setCrc c) = .refused w)) ∧
  (∀ (i : Instr) (s : State) (b : BufUnit), i.isBuf = false →
    ∃ t, exec i s = .next t ∧ exec i (s.setBuf b) = .next (t.setBuf b) ∧ t.buf = s.buf)

/-- 40_crc_engine.md R89: the response of a CRC command and the CRC unit after it are a function of the CRC unit and the
command alone. -/
def Obligations.CrcCommandsDependOnTheCrcUnitAlone : Prop :=
  ∀ (i : Instr) (s s' : State), i.isBuf = false → s.crc = s'.crc →
    ∃ t t', exec i s = .next t ∧ exec i s' = .next t' ∧ t.resp = t'.resp ∧ t.crc = t'.crc

/-- 10_state.md R17: a step changes `CRC.P` only by hardware reset or by granting a `CRC.CREATE`, and every granted
`CRC.CREATE` writes all seven fields and the register together. -/
def Obligations.ParamsChangeOnlyByCreateOrHardwareReset : Prop :=
  ∀ s t : State, step s = .next t →
    (t.crc.params ≠ s.crc.params →
      s.inputs.head? = some .hardReset ∨
      ∃ r q sel, grantsNow r s ∧ outstandingOf s.reqs r = some q ∧ decode q = .ok (.crcCreate sel)) ∧
    (∀ r q sel, grantsNow r s → outstandingOf s.reqs r = some q → decode q = .ok (.crcCreate sel) →
      t.crc = ⟨selParams sel, (selParams sel).initialValue⟩)

/-- 10_state.md R18, R19: `BUF.valid` is never cleared except by hardware reset, and while no hardware reset is applied
a step changes `BUF.cap` only by granting a successful `BUF.CREATE`, which sets it to the operand and empties the buffer. -/
def Obligations.BufferAndCapacityPersist : Prop :=
  ∀ s t : State, step s = .next t → s.inputs.head? ≠ some .hardReset →
    (s.buf.valid = true → t.buf.valid = true) ∧
    (t.buf.cap ≠ s.buf.cap →
      ∃ r q n, grantsNow r s ∧ outstandingOf s.reqs r = some q ∧ decode q = .ok (.bufCreate n) ∧
        1 ≤ n ∧ n ≤ s.cfg.nmax ∧ (t.buf.cap : Int) = n ∧ t.buf.count = 0 ∧ t.buf.valid = true)

/-! ## The invariant -/

/-- The invariant holds right after reset, for all legal OPEN parameters. -/
def Obligations.InvariantHoldsAtReset : Prop := ∀ c : Config, c.wf = true → Inv (State.resetWith c)

/-- 10_state.md R19, R20, R21, R23, R26, 30_encoding.md R57: every step keeps the invariant, from every state that has
it, not only those a run reaches. -/
def Obligations.StepKeepsTheInvariant : Prop := ∀ s t : State, Inv s → step s = .next t → Inv t

/-! ## Encoding -/

/-- 30_encoding.md R61: the rows are disjoint: no command word matches two of them. -/
def Obligations.RowsAreDisjoint : Prop :=
  ∀ a ∈ rows, ∀ b ∈ rows, ∀ cw : BitVec 64, a.selects cw = true → b.selects cw = true → a = b

/-- 30_encoding.md R60: the decoder rejects exactly the commands that a condition (a) to (f) makes illegal, among all
2^64 command words and 2^96 parameter words. -/
def Obligations.DecoderRejectsExactlyTheIllegal : Prop :=
  ∀ q : Request, (∃ why, decode q = .error why) ↔ illegalByFields q = true

/-- 30_encoding.md R52 to R56, R59: decoding the encoding of a well-formed command gives it back, with every operand at
every value its field admits. -/
def Obligations.DecodeOfEncodeIsTheCommand : Prop :=
  ∀ (c : Config) (i : Instr), i.wf c = true → decode (encode i) = .ok i

/-- 30_encoding.md R52, R55, R61, R62: a decoded command is well formed and encodes to the command word it came from,
with the parameter word and the sequence its format takes: each legal command has one encoding. -/
def Obligations.EncodeOfDecodeIsTheWord : Prop :=
  ∀ (c : Config) (q : Request) (i : Instr), q.wf c = true → decode q = .ok i →
    i.wf c = true ∧ (encode i).cw = q.cw ∧
    (∀ p, i = .crcCreate (.explicit p) → (encode i).pw = q.pw) ∧
    (∀ p a n d, i = .crcCompute (.explicit p) a n d → (encode i).pw = q.pw) ∧
    (∀ sel a n d, i = .crcCompute sel a n d → d = q.data) ∧
    (∀ n es, i = .bufAdd n es → es = q.items)

/-- 30_encoding.md R66: the worked encodings, as requests with the sequences left empty. -/
def Obligations.WorkedWordsDecode : Prop :=
  decode ⟨0x0000000000000000, 0, [], []⟩ = .ok (.crcCreate .xmodem) ∧
  decode ⟨0x0001000000000000, 0, [], []⟩ = .ok (.crcCreate .mcrf4xx) ∧
  decode ⟨0x0002000000000000, 0, [], []⟩ = .ok (.crcCreate .modbus) ∧
  decode ⟨0x0003000000000000, 0x0003FFFF8000FFFFFFFF1021, [], []⟩ =
    .ok (.crcCreate (.explicit ⟨0x1021, 0xFFFF, 0xFFFF, 0x8000, 0xFFFF, true, true⟩)) ∧
  decode ⟨0x0100000000000000, 0, [], []⟩ = .ok .crcReset ∧
  decode ⟨0x02000000000000AB, 0, [], []⟩ = .ok (.crcUpdate 0xAB) ∧
  decode ⟨0x0300000000000000, 0, [], []⟩ = .ok .crcGetResult ∧
  decode ⟨0x0402000001000003, 0, [], []⟩ = .ok (.crcCompute .modbus 1 3 []) ∧
  decode ⟨0x1000000000000004, 0, [], []⟩ = .ok (.bufCreate 4) ∧
  decode ⟨0x1000000000FFFFFF, 0, [], []⟩ = .ok (.bufCreate (-1)) ∧
  decode ⟨0x1100000000000003, 0, [], []⟩ = .ok (.bufAdd 3 []) ∧
  decode ⟨0x1200000000000000, 0, [], []⟩ = .ok .bufCount ∧
  decode ⟨0x1300000000000000, 0, [], []⟩ = .ok .bufHasData ∧
  decode ⟨0x1400000000000002, 0, [], []⟩ = .ok (.bufHasDataN 2) ∧
  decode ⟨0x1500000000000000, 0, [], []⟩ = .ok (.bufPeek 0) ∧
  decode ⟨0x1600000000000002, 0, [], []⟩ = .ok (.bufGetData 2) ∧
  decode ⟨0x1700000000000001, 0, [], []⟩ = .ok (.bufRemove 1) ∧
  decode ⟨0x1800000000000000, 0, [], []⟩ = .ok .bufClear ∧
  decode ⟨0x2000000000000000, 0, [], []⟩ = .error .noRow ∧
  decode ⟨0x0100000000000001, 0, [], []⟩ = .error .noRow ∧
  decode ⟨0x0200000000000100, 0, [], []⟩ = .error .noRow ∧
  decode ⟨0x0004000000000000, 0, [], []⟩ = .error .noRow ∧
  decode ⟨0x1200000001000000, 0, [], []⟩ = .error .noRow

/-- 30_encoding.md R64: what each pseudo-command's expansion does: `CRC.FINALIZE` is `CRC.GETRESULT`,
`CRC.CREATE DEFAULT` constructs the XModem engine, `CRC.UPDATES` absorbs the whole sequence in order (nothing when it is
empty), `CRC.COMPUTEALL` answers the CRC of the whole of `DATA`, and `BUF.ADDALL` offers all of `ITEMS`, so that on a
constructed buffer it always completes. -/
def Obligations.PseudoCommandsDoWhatTheyName : Prop :=
  ∀ s : State,
    execSeq Pseudo.crcFinalize.expand s = exec .crcGetResult s ∧
    (∃ t, execSeq Pseudo.crcCreateDefault.expand s = .next t ∧ t.resp = some (okResponse 0 []) ∧
      t.crc = ⟨⟨0x1021#16, 0x0000#16, 0x0000#16, 0x8000#16, 0xFFFF#16, false, false⟩, 0x0000#16⟩ ∧ BufKept s t) ∧
    (∀ bytes : List Byte, ∃ t, execSeq (Pseudo.crcUpdates bytes).expand s = .next t ∧
      t.crc.reg = crcBytes s.crc.params s.crc.reg bytes ∧ t.crc.params = s.crc.params ∧ BufKept s t ∧
      (bytes = [] → t = s) ∧ (bytes ≠ [] → t.resp = some (okResponse 0 []))) ∧
    (∀ (sel : ParamSel) (bytes : List Byte), bytes ≠ [] →
      ∃ t, execSeq (Pseudo.crcComputeAll sel bytes).expand s = .next t ∧
        t.resp = some (okResponse
          (crcOut (selParams sel) (crcBytes (selParams sel) (selParams sel).initialValue bytes)).toNat [])) ∧
    (∀ items : List Elem, s.buf.valid = true →
      ∃ t, execSeq (Pseudo.bufAddAll items).expand s = .next t ∧ t.crc = s.crc ∧
        (s.buf.count + items.length ≤ s.buf.cap →
          t.resp = some (okResponse 0 []) ∧ t.buf.contents t.cfg = s.buf.contents s.cfg ++ items) ∧
        (s.buf.cap < s.buf.count + items.length →
          t.resp = some (errorResponse .capacityExceeded) ∧ t.buf.contents t.cfg = s.buf.contents s.cfg))

/-! ## The step and the requesters -/

/-- A step that grants a requester runs the command its outstanding request decodes to, and delivers the response to it
(20_memory.md R45).  A grant comes from the next input or, when none is pending, from the choice among the waiting, which
is no choice when one waits.  How the choice among several falls is a free value of the model (assumption log 5). -/
def Obligations.StepRunsTheGrantedCommand : Prop :=
  (∀ (s : State) (rest : List Input) (r : Nat) (q : Request) (i : Instr),
    s.inputs = .grant r :: rest → outstandingOf s.reqs r = some q → decode q = .ok i →
    (i.streaming = true → streamingElsewhere s.reqs r = false) →
    step s = deliver r (exec i (s.setInputs rest))) ∧
  (∀ (s : State) (r : Nat) (q : Request) (i : Instr),
    s.inputs = [] → freeChoice (waiting s.reqs) s.draws = some r → outstandingOf s.reqs r = some q → decode q = .ok i →
    (i.streaming = true → streamingElsewhere s.reqs r = false) →
    step s = deliver r (exec i (s.setDraws (s.draws + 1)))) ∧
  (∀ (r n : Nat), freeChoice [r] n = some r)

/-- 30_encoding.md R60, 60_exceptions.md R119: a granted illegal command is answered with `IllegalCommand`, whatever the
state and however the grant came about, and changes neither unit. -/
def Obligations.IllegalCommandIsAnsweredAndChangesNothing : Prop :=
  ∀ (s : State) (r : Nat) (q : Request) (why : Reject),
    grantsNow r s → outstandingOf s.reqs r = some q → decode q = .error why →
    ∃ t, step s = .next t ∧ t.crc = s.crc ∧ t.buf = s.buf ∧ t.cfg = s.cfg ∧
      receivedBy t r = receivedBy s r ++ [errorResponse .illegalCommand] ∧ outstandingOf t.reqs r = none

/-- 60_exceptions.md R125, 70_reset_and_hazards.md R141, 93_implementation_defined.md U4: a streaming command granted
while another requester has one outstanding has no meaning, however the grant came about.  That the stop comes at the grant
is the model's choice (assumption log 12). -/
def Obligations.OverlappingStreamingStops : Prop :=
  ∀ (s : State) (r r' : Nat) (q q' : Request) (i j : Instr),
    grantsNow r s → r ≠ r' → outstandingOf s.reqs r = some q → outstandingOf s.reqs r' = some q' →
    decode q = .ok i → decode q' = .ok j → i.streaming = true → j.streaming = true →
    step s = .refused .overlappingStreaming

/-- 60_exceptions.md R123, 70_reset_and_hazards.md R150: presenting a command makes it that requester's one outstanding
command and does nothing else.  The two stops, on a second command while one is outstanding and on a requester that is not
served, are the model's choices (assumption log 10), not the spec's. -/
def Obligations.PresentingMakesACommandOutstanding : Prop :=
  ∀ (s : State) (rest : List Input) (r : Nat) (q : Request), s.inputs = .present r q :: rest →
    (r < s.reqs.length → outstandingOf s.reqs r = none →
      ∃ t, step s = .next t ∧ outstandingOf t.reqs r = some q ∧ receivedBy t r = receivedBy s r ∧
        (∀ r', r' ≠ r → t.reqs[r']? = s.reqs[r']?) ∧ t.reqs.length = s.reqs.length ∧
        t.crc = s.crc ∧ t.buf = s.buf ∧ t.cfg = s.cfg ∧ t.resp = s.resp ∧ t.draws = s.draws ∧ t.inputs = rest) ∧
    (∀ q', outstandingOf s.reqs r = some q' → step s = .refused .secondCommandOutstanding) ∧
    (s.reqs.length ≤ r → step s = .refused .noSuchRequester)

/-- 30_encoding.md R57, 60_exceptions.md R126: a grant answers the granted requester with exactly one response, ends its
command, empties the response port and touches no other requester. -/
def Obligations.EveryGrantGivesExactlyOneResponse : Prop :=
  ∀ (s t : State) (r : Nat) (q : Request), grantsNow r s → outstandingOf s.reqs r = some q → step s = .next t →
    ∃ a, receivedBy t r = receivedBy s r ++ [a] ∧ outstandingOf t.reqs r = none ∧ t.resp = none ∧
      (∀ r', r' ≠ r → t.reqs[r']? = s.reqs[r']?) ∧ t.reqs.length = s.reqs.length ∧ t.cfg = s.cfg

/-- 60_exceptions.md R127, 10_state.md R24: a granted `CRC.COMPUTE` is answered whatever else is outstanding, its
response depends on its own operands alone, and it changes nothing but its own requester. -/
def Obligations.ComputeDisturbsNothing : Prop :=
  ∀ (sel : ParamSel) (start length : Int) (data : List Byte), ∃ a : Response,
    ∀ (s : State) (r : Nat) (q : Request), grantsNow r s → outstandingOf s.reqs r = some q →
      decode q = .ok (.crcCompute sel start length data) →
      ∃ t, step s = .next t ∧ t.crc = s.crc ∧ t.buf = s.buf ∧ receivedBy t r = receivedBy s r ++ [a] ∧
        ∀ r', r' ≠ r → t.reqs[r']? = s.reqs[r']?

/-- 70_reset_and_hazards.md R147: with no input pending and nobody waiting the block is idle and holds its state. -/
def Obligations.IdleBlockHoldsItsState : Prop :=
  ∀ s : State, s.inputs = [] → (∀ r, outstandingOf s.reqs r = none) → step s = .next s

/-- 95_test_vectors.md V90, 60_exceptions.md R121: `BUF.ADD 2` of requester 0 and `BUF.GETDATA 2` of requester 1
presented together on the buffer `[0x11, 0x22, 0x33]` of capacity 4 have exactly two outcomes: each grant order gives
its own, and where no input fixes the order the free choice gives one of the two. -/
def Obligations.TogetherPresentedCommandsHaveTwoOutcomes : Prop :=
  let s : State :=
    { State.resetWith { Config.standard with nreq := 2 } with
      buf := ⟨true, 4, 3, [(0, 0x11), (1, 0x22), (2, 0x33)], 0⟩
      reqs := [⟨some (encode (.bufAdd 2 [0x44, 0x55])), []⟩, ⟨some (encode (.bufGetData 2)), []⟩] }
  let seen : Result → Option (List (List Response) × List Elem) := fun x =>
    match x with
    | .next t => some (t.reqs.map (fun q => q.received), t.buf.contents t.cfg)
    | .fault _ => none
    | .refused _ => none
  let addFirst := some ([[errorResponse .capacityExceeded], [okResponse 0 [0x11, 0x22]]], [0x33])
  let takeFirst := some ([[okResponse 0 []], [okResponse 0 [0x11, 0x22]]], [0x33, 0x44, 0x55])
  seen (twoSteps (s.setInputs [.grant 0, .grant 1])) = addFirst ∧
  seen (twoSteps (s.setInputs [.grant 1, .grant 0])) = takeFirst ∧
  (seen (twoSteps s) = addFirst ∨ seen (twoSteps s) = takeFirst)

/-- 60_exceptions.md R126, 70_reset_and_hazards.md R150: in an endless run in which every grant that is owed is made, every
outstanding command that is owed a grant is answered in the end: a BUF command under the premise `FAIR` = true, or where
the other requesters do not compete for the lock for ever.  That a command which needs no lock is owed its grant without
`FAIR` is DEDUCED and unsafe (assumption log 12); what needs the lock and what competing means are the model's choices
(assumption log 16). -/
def Obligations.DueGrantsAnswerEveryCommand : Prop :=
  ∀ (tr : Nat → State) (new : Nat → List Input), Run tr new → GrantsDue tr new →
    ∀ (r k : Nat) (q : Request), outstandingOf (tr k).reqs r = some q → GrantOwed tr r q →
      ∃ j, k ≤ j ∧ outstandingOf (tr j).reqs r = some q ∧
        ∃ a, receivedBy (tr (j + 1)) r = receivedBy (tr j) r ++ [a]

/-- 60_exceptions.md R126: "with `FAIR = false` a requester may be passed over for ever while others are served": there
is an endless run of a two-requester block from a legal state in which requester 1 waits at every instant and requester 0
is answered again and again, with every grant made that is owed (assumption logs 12 and 16). -/
def Obligations.WithoutFairnessARequesterMayStarve : Prop :=
  ∃ (tr : Nat → State) (new : Nat → List Input), Run tr new ∧ GrantsDue tr new ∧ Inv (tr 0) ∧
    (tr 0).cfg.nreq = 2 ∧ (tr 0).cfg.fair = false ∧
    (∀ k, outstandingOf (tr k).reqs 1 = some (encode .bufCount)) ∧
    (∀ k, ∃ j, k ≤ j ∧ ∃ a, receivedBy (tr (j + 1)) 0 = receivedBy (tr j) 0 ++ [a])
end

