-- ==== Sys2Proof/Laws/State.lean ====
section
/-! SUPPORT. One lemma per field per update of the state, and what answering, raising and hardware reset leave. -/

namespace Sys2Proof.Machine

open Sys2Proof

/-! ### `setCrc` -/

@[simp] theorem setCrc_cfg (s : State) (c : CrcUnit) : (s.setCrc c).cfg = s.cfg := rfl
@[simp] theorem setCrc_crc (s : State) (c : CrcUnit) : (s.setCrc c).crc = c := rfl
@[simp] theorem setCrc_buf (s : State) (c : CrcUnit) : (s.setCrc c).buf = s.buf := rfl
@[simp] theorem setCrc_resp (s : State) (c : CrcUnit) : (s.setCrc c).resp = s.resp := rfl
@[simp] theorem setCrc_reqs (s : State) (c : CrcUnit) : (s.setCrc c).reqs = s.reqs := rfl
@[simp] theorem setCrc_inputs (s : State) (c : CrcUnit) : (s.setCrc c).inputs = s.inputs := rfl
@[simp] theorem setCrc_draws (s : State) (c : CrcUnit) : (s.setCrc c).draws = s.draws := rfl

/-! ### `setReg` -/

@[simp] theorem setReg_cfg (s : State) (r : Word) : (s.setReg r).cfg = s.cfg := rfl
@[simp] theorem setReg_crc (s : State) (r : Word) :
    (s.setReg r).crc = { params := s.crc.params, reg := r } := rfl
@[simp] theorem setReg_buf (s : State) (r : Word) : (s.setReg r).buf = s.buf := rfl
@[simp] theorem setReg_resp (s : State) (r : Word) : (s.setReg r).resp = s.resp := rfl
@[simp] theorem setReg_reqs (s : State) (r : Word) : (s.setReg r).reqs = s.reqs := rfl
@[simp] theorem setReg_inputs (s : State) (r : Word) : (s.setReg r).inputs = s.inputs := rfl
@[simp] theorem setReg_draws (s : State) (r : Word) : (s.setReg r).draws = s.draws := rfl

/-! ### `setBuf` -/

@[simp] theorem setBuf_cfg (s : State) (b : BufUnit) : (s.setBuf b).cfg = s.cfg := rfl
@[simp] theorem setBuf_crc (s : State) (b : BufUnit) : (s.setBuf b).crc = s.crc := rfl
@[simp] theorem setBuf_buf (s : State) (b : BufUnit) : (s.setBuf b).buf = b := rfl
@[simp] theorem setBuf_resp (s : State) (b : BufUnit) : (s.setBuf b).resp = s.resp := rfl
@[simp] theorem setBuf_reqs (s : State) (b : BufUnit) : (s.setBuf b).reqs = s.reqs := rfl
@[simp] theorem setBuf_inputs (s : State) (b : BufUnit) : (s.setBuf b).inputs = s.inputs := rfl
@[simp] theorem setBuf_draws (s : State) (b : BufUnit) : (s.setBuf b).draws = s.draws := rfl

/-! ### `setResp` -/

@[simp] theorem setResp_cfg (s : State) (a : Option Response) : (s.setResp a).cfg = s.cfg := rfl
@[simp] theorem setResp_crc (s : State) (a : Option Response) : (s.setResp a).crc = s.crc := rfl
@[simp] theorem setResp_buf (s : State) (a : Option Response) : (s.setResp a).buf = s.buf := rfl
@[simp] theorem setResp_resp (s : State) (a : Option Response) : (s.setResp a).resp = a := rfl
@[simp] theorem setResp_reqs (s : State) (a : Option Response) : (s.setResp a).reqs = s.reqs := rfl
@[simp] theorem setResp_inputs (s : State) (a : Option Response) : (s.setResp a).inputs = s.inputs := rfl
@[simp] theorem setResp_draws (s : State) (a : Option Response) : (s.setResp a).draws = s.draws := rfl

/-! ### `setReqs` -/

@[simp] theorem setReqs_cfg (s : State) (rs : List Requester) : (s.setReqs rs).cfg = s.cfg := rfl
@[simp] theorem setReqs_crc (s : State) (rs : List Requester) : (s.setReqs rs).crc = s.crc := rfl
@[simp] theorem setReqs_buf (s : State) (rs : List Requester) : (s.setReqs rs).buf = s.buf := rfl
@[simp] theorem setReqs_resp (s : State) (rs : List Requester) : (s.setReqs rs).resp = s.resp := rfl
@[simp] theorem setReqs_reqs (s : State) (rs : List Requester) : (s.setReqs rs).reqs = rs := rfl
@[simp] theorem setReqs_inputs (s : State) (rs : List Requester) : (s.setReqs rs).inputs = s.inputs := rfl
@[simp] theorem setReqs_draws (s : State) (rs : List Requester) : (s.setReqs rs).draws = s.draws := rfl

/-! ### `setInputs` -/

@[simp] theorem setInputs_cfg (s : State) (is : List Input) : (s.setInputs is).cfg = s.cfg := rfl
@[simp] theorem setInputs_crc (s : State) (is : List Input) : (s.setInputs is).crc = s.crc := rfl
@[simp] theorem setInputs_buf (s : State) (is : List Input) : (s.setInputs is).buf = s.buf := rfl
@[simp] theorem setInputs_resp (s : State) (is : List Input) : (s.setInputs is).resp = s.resp := rfl
@[simp] theorem setInputs_reqs (s : State) (is : List Input) : (s.setInputs is).reqs = s.reqs := rfl
@[simp] theorem setInputs_inputs (s : State) (is : List Input) : (s.setInputs is).inputs = is := rfl
@[simp] theorem setInputs_draws (s : State) (is : List Input) : (s.setInputs is).draws = s.draws := rfl

/-! ### `setDraws` -/

@[simp] theorem setDraws_cfg (s : State) (n : Nat) : (s.setDraws n).cfg = s.cfg := rfl
@[simp] theorem setDraws_crc (s : State) (n : Nat) : (s.setDraws n).crc = s.crc := rfl
@[simp] theorem setDraws_buf (s : State) (n : Nat) : (s.setDraws n).buf = s.buf := rfl
@[simp] theorem setDraws_resp (s : State) (n : Nat) : (s.setDraws n).resp = s.resp := rfl
@[simp] theorem setDraws_reqs (s : State) (n : Nat) : (s.setDraws n).reqs = s.reqs := rfl
@[simp] theorem setDraws_inputs (s : State) (n : Nat) : (s.setDraws n).inputs = s.inputs := rfl
@[simp] theorem setDraws_draws (s : State) (n : Nat) : (s.setDraws n).draws = n := rfl

/-! ### Hardware reset -/

@[simp] theorem hardwareReset_crc (s : State) : (hardwareReset s).crc = CrcUnit.afterReset := rfl
@[simp] theorem hardwareReset_buf (s : State) :
    (hardwareReset s).buf = BufUnit.afterReset (s.buf.epoch + 1) := rfl
@[simp] theorem hardwareReset_cfg (s : State) : (hardwareReset s).cfg = s.cfg := rfl
@[simp] theorem hardwareReset_resp (s : State) : (hardwareReset s).resp = s.resp := rfl
@[simp] theorem hardwareReset_reqs (s : State) : (hardwareReset s).reqs = s.reqs := rfl
@[simp] theorem hardwareReset_inputs (s : State) : (hardwareReset s).inputs = s.inputs := rfl
@[simp] theorem hardwareReset_draws (s : State) : (hardwareReset s).draws = s.draws := rfl

/-! ### A later write of the response port wins -/

@[simp] theorem setResp_setResp (s : State) (a b : Option Response) : (s.setResp a).setResp b = s.setResp b := rfl
@[simp] theorem setCrc_setResp (s : State) (a : Option Response) (c : CrcUnit) :
    (s.setResp a).setCrc c = (s.setCrc c).setResp a := rfl
@[simp] theorem setReg_setResp (s : State) (a : Option Response) (r : Word) :
    (s.setResp a).setReg r = (s.setReg r).setResp a := rfl
@[simp] theorem setBuf_setResp (s : State) (a : Option Response) (b : BufUnit) :
    (s.setResp a).setBuf b = (s.setBuf b).setResp a := rfl

/-! ### Answering and raising: the only next state each can give -/

theorem respond_eq_next {v : Nat} {out : List Elem} {s t : State} :
    respond v out s = .next t ↔ t = s.setResp (some { status := .ok, value := v, out := out }) := by
  simp [respond, eq_comm]

theorem raise_eq_next {e : ErrorKind} {s t : State} :
    raise e s = .next t ↔ t = s.setResp (some { status := .error e, value := 0, out := [] }) := by
  simp [raise, eq_comm]

theorem respond_ne_refused (v : Nat) (out : List Elem) (s : State) (w : Refusal) : respond v out s ≠ .refused w := by
  simp [respond]

theorem raise_ne_refused (e : ErrorKind) (s : State) (w : Refusal) : raise e s ≠ .refused w := by
  simp [raise]

/-- Answering looks at no earlier response. -/
@[simp] theorem respond_setResp (v : Nat) (out : List Elem) (s : State) (a : Option Response) :
    respond v out (s.setResp a) = respond v out s := rfl

/-- Raising looks at no earlier response. -/
@[simp] theorem raise_setResp (e : ErrorKind) (s : State) (a : Option Response) : raise e (s.setResp a) = raise e s := rfl

end Sys2Proof.Machine
end

