-- ==== Sys2Proof/Laws/Crc.lean ====
section
/-! SUPPORT. The laws of the CRC steps. -/

namespace Sys2Proof.Machine

open Sys2Proof

/-- Bit `i` of the reversal is bit `n - 1 - i`. -/
theorem revBits_getLsbD {n : Nat} (v : BitVec n) (i : Nat) (h : i < n) :
    (revBits v).getLsbD i = v.getLsbD (n - 1 - i) := by
  unfold revBits
  rw [BitVec.getLsbD_reverse, BitVec.getMsbD_eq_getLsbD]
  simp [h]

@[simp] theorem revBits_revBits {n : Nat} (v : BitVec n) : revBits (revBits v) = v := by
  apply BitVec.eq_of_getLsbD_eq
  intro i hi
  rw [revBits_getLsbD _ _ hi, revBits_getLsbD _ _ (by omega)]
  congr 1
  omega

theorem revBits_xor {n : Nat} (x y : BitVec n) : revBits (x ^^^ y) = revBits x ^^^ revBits y := by
  apply BitVec.eq_of_getLsbD_eq
  intro i hi
  simp [revBits_getLsbD _ _ hi]

@[simp] theorem rev16_rev16 (v : Word) : rev16 (rev16 v) = v := revBits_revBits v
@[simp] theorem rev8_rev8 (v : Byte) : rev8 (rev8 v) = v := revBits_revBits v
theorem rev16_xor (x y : Word) : rev16 (x ^^^ y) = rev16 x ^^^ rev16 y := revBits_xor x y

/-- The value of the feedback test: the register, complemented when the input bit is 1, under the mask. -/
theorem crcBit_eq (p : CrcParams) (r : Word) (x : Bool) :
    crcBit p r x =
      if ((if x then ~~~r else r) &&& p.msbMask) ≠ 0#16 then shiftLeft1 r ^^^ p.polynomial else shiftLeft1 r := by
  have h : (r &&& p.msbMask) ^^^ p.msbMask = ~~~r &&& p.msbMask := by
    apply BitVec.eq_of_getLsbD_eq
    intro i hi
    simp only [BitVec.getLsbD_xor, BitVec.getLsbD_and, BitVec.getLsbD_not, hi, decide_true, Bool.true_and]
    cases r.getLsbD i <;> cases p.msbMask.getLsbD i <;> rfl
  unfold crcBit
  cases x <;> simp [h]

theorem crcBytes_eq_foldl (p : CrcParams) (r : Word) (s : List Byte) : crcBytes p r s = s.foldl (crcByte p) r := by
  induction s generalizing r with
  | nil => rfl
  | cons c cs ih => exact ih _

theorem crcBytes_append (p : CrcParams) (r : Word) (a b : List Byte) :
    crcBytes p r (a ++ b) = crcBytes p (crcBytes p r a) b := by
  simp [crcBytes_eq_foldl]

theorem crcOut_reflected {p : CrcParams} (h : p.reflectOutput = true) (r : Word) :
    crcOut p r = (rev16 r ^^^ p.finalXor) &&& p.outputMask := by
  simp [crcOut, h]

theorem crcOut_raw {p : CrcParams} (h : p.reflectOutput = false) (r : Word) : crcOut p r = r := by
  simp [crcOut, h]

end Sys2Proof.Machine
end

