-- ==== Sys2Proof/Laws/Decode.lean ====
section
/-! SUPPORT. The laws of the command word's fields, of the rows of the opcode map, and of the parameter word. -/

namespace Sys2Proof

/-! ## Fields of a command word -/

theorem getLsbD_packCw (op sel : BitVec 8) (a b : BitVec 24) (i : Nat) :
    (packCw op sel a b).getLsbD i =
      if i < 24 then b.getLsbD i else if i < 48 then a.getLsbD (i - 24)
      else if i < 56 then sel.getLsbD (i - 48) else op.getLsbD (i - 56) := by
  simp only [packCw, BitVec.getLsbD_append]
  by_cases h1 : i < 24
  · simp [h1]
  · by_cases h2 : i < 48
    · have : i - 24 < 24 := by omega
      simp [h1, h2, this]
    · have h3 : ¬ i - 24 < 24 := by omega
      by_cases h4 : i < 56
      · have : i - 48 < 8 := by omega
        simp [h1, h2, h3, h4, this, Nat.sub_sub]
      · have : ¬ i - 48 < 8 := by omega
        simp [h1, h2, h3, h4, this, Nat.sub_sub]

@[simp] theorem opField_packCw (op sel : BitVec 8) (a b : BitVec 24) : opField (packCw op sel a b) = op := by
  apply BitVec.eq_of_getLsbD_eq
  intro i hi
  simp only [opField, BitVec.getLsbD_extractLsb', getLsbD_packCw, hi, decide_true, Bool.true_and]
  rw [if_neg (by omega), if_neg (by omega), if_neg (by omega)]
  congr 1; omega

@[simp] theorem selField_packCw (op sel : BitVec 8) (a b : BitVec 24) : selField (packCw op sel a b) = sel := by
  apply BitVec.eq_of_getLsbD_eq
  intro i hi
  simp only [selField, BitVec.getLsbD_extractLsb', getLsbD_packCw, hi, decide_true, Bool.true_and]
  rw [if_neg (by omega), if_neg (by omega), if_pos (by omega)]
  congr 1; omega

@[simp] theorem aField_packCw (op sel : BitVec 8) (a b : BitVec 24) : aField (packCw op sel a b) = a := by
  apply BitVec.eq_of_getLsbD_eq
  intro i hi
  simp only [aField, BitVec.getLsbD_extractLsb', getLsbD_packCw, hi, decide_true, Bool.true_and]
  rw [if_neg (by omega), if_pos (by omega)]
  congr 1; omega

@[simp] theorem bField_packCw (op sel : BitVec 8) (a b : BitVec 24) : bField (packCw op sel a b) = b := by
  apply BitVec.eq_of_getLsbD_eq
  intro i hi
  simp only [bField, BitVec.getLsbD_extractLsb', getLsbD_packCw, hi, decide_true, Bool.true_and]
  rw [if_pos (by omega)]
  congr 1; omega

/-- A command word is its four fields. -/
theorem packCw_fields (cw : BitVec 64) : packCw (opField cw) (selField cw) (aField cw) (bField cw) = cw := by
  apply BitVec.eq_of_getLsbD_eq
  intro i hi
  simp only [getLsbD_packCw, opField, selField, aField, bField, BitVec.getLsbD_extractLsb']
  by_cases h1 : i < 24
  · simp [h1]
  · by_cases h2 : i < 48
    · have : i - 24 < 24 := by omega
      simp [h1, h2, this, show 24 + (i - 24) = i by omega]
    · by_cases h4 : i < 56
      · have : i - 48 < 8 := by omega
        simp [h1, h2, h4, this, show 48 + (i - 48) = i by omega]
      · have : i - 56 < 8 := by omega
        simp [h1, h2, h4, this, show 56 + (i - 56) = i by omega]

theorem packCw_inj {op op' sel sel' : BitVec 8} {a a' b b' : BitVec 24} :
    packCw op sel a b = packCw op' sel' a' b' ↔ op = op' ∧ sel = sel' ∧ a = a' ∧ b = b' := by
  constructor
  · intro h
    refine ⟨?_, ?_, ?_, ?_⟩
    · simpa using congrArg opField h
    · simpa using congrArg selField h
    · simpa using congrArg aField h
    · simpa using congrArg bField h
  · rintro ⟨rfl, rfl, rfl, rfl⟩; rfl

theorem packCw_and (op op' sel sel' : BitVec 8) (a a' b b' : BitVec 24) :
    packCw op sel a b &&& packCw op' sel' a' b' = packCw (op &&& op') (sel &&& sel') (a &&& a') (b &&& b') := by
  apply BitVec.eq_of_getLsbD_eq
  intro i hi
  simp only [BitVec.getLsbD_and, getLsbD_packCw]
  split_ifs <;> rfl

/-- A word matches a row whose mask covers the opcode exactly when its opcode is the row's and every field is zero under
the row's mask. -/
theorem and_mask_eq_iff (cw : BitVec 64) (op ms : BitVec 8) (ma mb : BitVec 24) :
    cw &&& packCw 0xFF#8 ms ma mb = packCw op 0#8 0#24 0#24 ↔
      opField cw = op ∧ selField cw &&& ms = 0#8 ∧ aField cw &&& ma = 0#24 ∧ bField cw &&& mb = 0#24 := by
  conv_lhs => rw [← packCw_fields cw]
  rw [packCw_and, packCw_inj]
  have : opField cw &&& 0xFF#8 = opField cw := BitVec.and_allOnes
  rw [this]

/-! ## The rows -/

/-- The part of a row's mask over `sel`, by format (30_encoding.md R54). -/
def selMask : Mnemonic → BitVec 8
  | .crcCreate => 0xFC#8
  | .crcCompute => 0xFC#8
  | _ => 0xFF#8

/-- The part of a row's mask over `a`. -/
def aMask : Mnemonic → BitVec 24
  | .crcCompute => 0#24
  | _ => 0xFFFFFF#24

/-- The part of a row's mask over `b`. -/
def bMask : Mnemonic → BitVec 24
  | .crcCreate => 0xFFFFFF#24
  | .crcReset => 0xFFFFFF#24
  | .crcUpdate => 0xFFFF00#24
  | .crcGetResult => 0xFFFFFF#24
  | .bufCount => 0xFFFFFF#24
  | .bufHasData => 0xFFFFFF#24
  | .bufClear => 0xFFFFFF#24
  | _ => 0#24

/-- The row of a command, its mask and match put together from the format (30_encoding.md R54) and the opcode. -/
def rowOf (m : Mnemonic) : Row :=
  { mnemonic := m, mask := packCw 0xFF#8 (selMask m) (aMask m) (bMask m), want := packCw (opcode m) 0#8 0#24 0#24 }

/-- The opcode map is the formats and the opcodes: every mask and match of R59 follows from R54. -/
theorem rows_eq_map_rowOf :
    rows = [Mnemonic.crcCreate, .crcReset, .crcUpdate, .crcGetResult, .crcCompute, .bufCreate, .bufAdd, .bufCount,
      .bufHasData, .bufHasDataN, .bufPeek, .bufGetData, .bufRemove, .bufClear].map rowOf := by decide

theorem mem_rows {r : Row} : r ∈ rows ↔ r = rowOf r.mnemonic := by
  rw [rows_eq_map_rowOf]
  constructor
  · intro h
    obtain ⟨m, -, rfl⟩ := List.mem_map.1 h
    rfl
  · intro h
    rw [h]
    apply List.mem_map_of_mem
    cases r.mnemonic <;> simp

/-- The opcode names the row. -/
theorem opcode_inj {m m' : Mnemonic} : opcode m = opcode m' ↔ m = m' := by
  cases m <;> cases m' <;> decide

/-- When a command word selects a command's row. -/
theorem rowOf_selects {m : Mnemonic} {cw : BitVec 64} :
    (rowOf m).selects cw = true ↔
      opField cw = opcode m ∧ selField cw &&& selMask m = 0#8 ∧ aField cw &&& aMask m = 0#24 ∧
        bField cw &&& bMask m = 0#24 := by
  simp only [Row.selects, rowOf, beq_iff_eq]
  exact and_mask_eq_iff ..

/-- The decoder takes exactly the row of the word's opcode. -/
theorem find_row_eq_some {cw : BitVec 64} {r : Row} :
    rows.find? (fun x => x.selects cw) = some r ↔ r ∈ rows ∧ r.selects cw = true := by
  constructor
  · intro h
    exact ⟨List.mem_of_find?_eq_some h, List.find?_some (p := fun x : Row => x.selects cw) h⟩
  · rintro ⟨hm, hs⟩
    cases hf : rows.find? (fun x => x.selects cw) with
    | none => exact absurd hs (by simpa using List.find?_eq_none.1 hf r hm)
    | some r' =>
      have hm' := List.mem_of_find?_eq_some hf
      have hs' : r'.selects cw = true := List.find?_some (p := fun x : Row => x.selects cw) hf
      rw [mem_rows] at hm hm'
      rw [hm, rowOf_selects] at hs
      rw [hm', rowOf_selects] at hs'
      have : r'.mnemonic = r.mnemonic := opcode_inj.1 (hs'.1.symm.trans hs.1)
      rw [hm, hm', this]

/-- The decoder on a request whose word selects the row of `m`. -/
theorem decode_of_selects {m : Mnemonic} {q : Request} (h : (rowOf m).selects q.cw = true) :
    decode q = buildInstr m q := by
  have : rows.find? (fun x => x.selects q.cw) = some (rowOf m) := find_row_eq_some.2 ⟨mem_rows.2 rfl, h⟩
  simp [decode, this, rowOf]

/-- What a decoded command came from. -/
theorem decode_ok_cases {q : Request} {i : Instr} (h : decode q = .ok i) :
    ∃ m, (rowOf m).selects q.cw = true ∧ buildInstr m q = .ok i := by
  unfold decode at h
  split at h
  · simp at h
  · next r hr =>
    obtain ⟨hm, hs⟩ := find_row_eq_some.1 hr
    rw [mem_rows] at hm
    exact ⟨r.mnemonic, by rw [← hm]; exact hs, h⟩

/-- Why a command was rejected: no row, or the row's own rejection. -/
theorem decode_error_cases {q : Request} {why : Reject} (h : decode q = .error why) :
    (∀ m, (rowOf m).selects q.cw = false) ∨ ∃ m, (rowOf m).selects q.cw = true ∧ buildInstr m q = .error why := by
  unfold decode at h
  split at h
  · next hn =>
    left
    intro m
    have := List.find?_eq_none.1 hn (rowOf m) (mem_rows.2 rfl)
    simpa using this
  · next r hr =>
    obtain ⟨hm, hs⟩ := find_row_eq_some.1 hr
    rw [mem_rows] at hm
    exact .inr ⟨r.mnemonic, by rw [← hm]; exact hs, h⟩

/-! ## Operands -/

theorem toInt_ofInt_of_operandFits {n : Int} (h : operandFits n = true) : (BitVec.ofInt 24 n).toInt = n := by
  simp only [operandFits, Bool.and_eq_true, decide_eq_true_eq] at h
  rw [BitVec.toInt_ofInt, Int.bmod_eq_of_le] <;> omega

theorem operandFits_toInt (v : BitVec 24) : operandFits v.toInt = true := by
  have h1 := BitVec.le_toInt v
  have h2 := BitVec.toInt_lt (x := v)
  simp only [operandFits, Bool.and_eq_true, decide_eq_true_eq]
  omega

theorem cField_eq (cw : BitVec 64) : cField cw = (bField cw).setWidth 8 := by
  apply BitVec.eq_of_getLsbD_eq
  intro i hi
  simp [cField, bField, hi]
  intro; omega

/-- The two selector bits are the low bits of `sel`. -/
theorem selLow_eq (cw : BitVec 64) : cw.extractLsb' 48 2 = (selField cw).setWidth 2 := by
  apply BitVec.eq_of_getLsbD_eq
  intro i hi
  simp [selField, hi]
  intro; omega

/-! ## The parameter word -/

theorem getLsbD_pack (p : CrcParams) (i : Nat) :
    (pack p).getLsbD i =
      if i < 16 then p.polynomial.getLsbD i else if i < 32 then p.initialValue.getLsbD (i - 16)
      else if i < 48 then p.finalXor.getLsbD (i - 32) else if i < 64 then p.msbMask.getLsbD (i - 48)
      else if i < 80 then p.outputMask.getLsbD (i - 64) else if i < 81 then p.reflectInput
      else if i < 82 then p.reflectOutput else false := by
  simp only [pack, BitVec.getLsbD_append, BitVec.getLsbD_ofBool, BitVec.getLsbD_zero]
  by_cases h1 : i < 16
  · simp [h1]
  by_cases h2 : i < 32
  · simp [h1, h2, show i - 16 < 16 by omega]
  by_cases h3 : i < 48
  · simp [h1, h2, h3, show ¬ i - 16 < 16 by omega, show i - 32 < 16 by omega, Nat.sub_sub]
  by_cases h4 : i < 64
  · simp [h1, h2, h3, h4, show ¬ i - 16 < 16 by omega, show ¬ i - 32 < 16 by omega,
      show i - 48 < 16 by omega, Nat.sub_sub]
  by_cases h5 : i < 80
  · simp [h1, h2, h3, h4, h5, show ¬ i - 16 < 16 by omega, show ¬ i - 32 < 16 by omega,
      show ¬ i - 48 < 16 by omega, show i - 64 < 16 by omega, Nat.sub_sub]
  by_cases h6 : i < 81
  · obtain rfl : i = 80 := by omega
    simp
  by_cases h7 : i < 82
  · obtain rfl : i = 81 := by omega
    simp
  · simp [h1, h2, h3, h4, h5, h6, h7, show ¬ i - 16 < 16 by omega, show ¬ i - 32 < 16 by omega,
      show ¬ i - 48 < 16 by omega, show ¬ i - 64 < 16 by omega,
      show ¬ i - 80 < 1 by omega, show ¬ i - 81 < 1 by omega, Nat.sub_sub]

/-- Reading back a packed parameter record. -/
theorem unpack_pack (p : CrcParams) : unpack (pack p) = p := by
  obtain ⟨po, iv, fx, mm, om, ri, ro⟩ := p
  simp only [unpack, CrcParams.mk.injEq]
  refine ⟨?_, ?_, ?_, ?_, ?_, ?_, ?_⟩
  · apply BitVec.eq_of_getLsbD_eq; intro i hi
    simp [getLsbD_pack, hi]
  · apply BitVec.eq_of_getLsbD_eq; intro i hi
    simp only [BitVec.getLsbD_extractLsb', getLsbD_pack, hi, decide_true, Bool.true_and]
    rw [if_neg (by omega), if_pos (by omega)]; congr 1; omega
  · apply BitVec.eq_of_getLsbD_eq; intro i hi
    simp only [BitVec.getLsbD_extractLsb', getLsbD_pack, hi, decide_true, Bool.true_and]
    rw [if_neg (by omega), if_neg (by omega), if_pos (by omega)]; congr 1; omega
  · apply BitVec.eq_of_getLsbD_eq; intro i hi
    simp only [BitVec.getLsbD_extractLsb', getLsbD_pack, hi, decide_true, Bool.true_and]
    rw [if_neg (by omega), if_neg (by omega), if_neg (by omega), if_pos (by omega)]; congr 1; omega
  · apply BitVec.eq_of_getLsbD_eq; intro i hi
    simp only [BitVec.getLsbD_extractLsb', getLsbD_pack, hi, decide_true, Bool.true_and]
    rw [if_neg (by omega), if_neg (by omega), if_neg (by omega), if_neg (by omega), if_pos (by omega)]
    congr 1; omega
  · rw [getLsbD_pack]; rfl
  · rw [getLsbD_pack]; rfl

/-- A packed record has its reserved bits zero. -/
theorem pwReserved_pack (p : CrcParams) : pwReserved (pack p) = 0#14 := by
  apply BitVec.eq_of_getLsbD_eq
  intro i hi
  simp only [pwReserved, BitVec.getLsbD_extractLsb', getLsbD_pack, hi, decide_true, Bool.true_and, BitVec.getLsbD_zero]
  rw [if_neg (by omega), if_neg (by omega), if_neg (by omega), if_neg (by omega), if_neg (by omega),
    if_neg (by omega), if_neg (by omega)]

/-- A parameter word with its reserved bits zero is the packing of its record. -/
theorem pack_unpack {pw : BitVec 96} (h : pwReserved pw = 0#14) : pack (unpack pw) = pw := by
  apply BitVec.eq_of_getLsbD_eq
  intro i hi
  rw [getLsbD_pack]
  simp only [unpack, BitVec.getLsbD_extractLsb']
  by_cases h1 : i < 16
  · simp [h1]
  by_cases h2 : i < 32
  · simp [h1, h2, show i - 16 < 16 by omega, show 16 + (i - 16) = i by omega]
  by_cases h3 : i < 48
  · simp [h1, h2, h3, show i - 32 < 16 by omega, show 32 + (i - 32) = i by omega]
  by_cases h4 : i < 64
  · simp [h1, h2, h3, h4, show i - 48 < 16 by omega, show 48 + (i - 48) = i by omega]
  by_cases h5 : i < 80
  · simp [h1, h2, h3, h4, h5, show i - 64 < 16 by omega, show 64 + (i - 64) = i by omega]
  by_cases h6 : i < 81
  · obtain rfl : i = 80 := by omega
    simp
  by_cases h7 : i < 82
  · obtain rfl : i = 81 := by omega
    simp
  · have hb := congrArg (fun v => BitVec.getLsbD v (i - 82)) h
    simp only [pwReserved, BitVec.getLsbD_extractLsb', show i - 82 < 14 by omega, decide_true, Bool.true_and,
      show 82 + (i - 82) = i by omega, BitVec.getLsbD_zero] at hb
    simp [h1, h2, h3, h4, h5, h6, h7, hb]

end Sys2Proof
end

