-- ==== Sys2Proof/Laws/Store.lean ====
section
/-! SUPPORT. The laws of the backing store: read after write, the canonical form, and what the append and compaction
loops leave in every slot. -/

namespace Sys2Proof.Machine

open Sys2Proof

/-! ## One slot -/

theorem storeFind_storeWrite (m : List (Nat × Elem)) (i j : Nat) (e : Elem) :
    storeFind (storeWrite m i e) j = if i = j then some e else storeFind m j := by
  induction m with
  | nil => simp [storeWrite, storeFind]
  | cons x rest ih =>
    obtain ⟨k, y⟩ := x
    simp only [storeWrite]
    split
    · simp [storeFind]
    · split
      · subst_vars; simp only [storeFind]; split <;> rfl
      · simp only [storeFind, ih]
        split
        · subst_vars; simp_all
        · rfl

/-- A read after a write: the element written, at its own slot; every other slot as before. -/
theorem slotRead_storeWrite (c : Config) (ep : Nat) (m : List (Nat × Elem)) (i j : Nat) (e : Elem) :
    slotRead c ep (storeWrite m i e) j = if i = j then e else slotRead c ep m j := by
  simp only [slotRead, storeFind_storeWrite]
  split
  · next h => split at h <;> simp_all
  · next h => split at h <;> simp_all

/-! ## The canonical form -/

theorem mem_storeWrite {m : List (Nat × Elem)} {i : Nat} {e : Elem} {x : Nat × Elem}
    (h : x ∈ storeWrite m i e) : x = (i, e) ∨ x ∈ m := by
  induction m with
  | nil => simpa [storeWrite] using h
  | cons y rest ih =>
    obtain ⟨k, z⟩ := y
    simp only [storeWrite] at h
    split at h
    · simpa using h
    · split at h <;> simp only [List.mem_cons] at h ⊢ <;> tauto

theorem storeWrite_wf {m : List (Nat × Elem)} (h : Memory.wf m = true) (i : Nat) (e : Elem) :
    Memory.wf (storeWrite m i e) = true := by
  induction m with
  | nil => rfl
  | cons y rest ih =>
    obtain ⟨k, z⟩ := y
    simp only [Memory.wf, Bool.and_eq_true, List.all_eq_true, decide_eq_true_eq] at h
    obtain ⟨hk, hrest⟩ := h
    simp only [storeWrite]
    split
    · next hik =>
      simp only [Memory.wf, Bool.and_eq_true, List.all_eq_true, decide_eq_true_eq, List.mem_cons]
      refine ⟨?_, hk, hrest⟩
      rintro x (rfl | hx)
      · exact hik
      · exact lt_trans hik (hk x hx)
    · split
      · next hik =>
        subst hik
        simp only [Memory.wf, Bool.and_eq_true, List.all_eq_true, decide_eq_true_eq]
        exact ⟨hk, hrest⟩
      · next h1 h2 =>
        simp only [Memory.wf, Bool.and_eq_true, List.all_eq_true, decide_eq_true_eq]
        refine ⟨fun x hx => ?_, ih hrest⟩
        rcases mem_storeWrite hx with rfl | hx
        · show k < i
          omega
        · exact hk x hx

theorem storeFind_mem {m : List (Nat × Elem)} {i : Nat} {e : Elem} (h : storeFind m i = some e) : (i, e) ∈ m := by
  induction m with
  | nil => simp [storeFind] at h
  | cons y rest ih =>
    obtain ⟨k, z⟩ := y
    simp only [storeFind] at h
    split at h
    · simp_all
    · exact List.mem_cons_of_mem _ (ih h)

/-- What a slot reads fits `ELEM_W` bits when every listed element does. -/
theorem slotRead_fits {c : Config} {m : List (Nat × Elem)} (h : ∀ x ∈ m, x.2 < 2 ^ c.elemW) (ep i : Nat) :
    slotRead c ep m i < 2 ^ c.elemW := by
  unfold slotRead
  split
  · next e he => exact h _ (storeFind_mem he)
  · exact Nat.mod_lt _ (by positivity)

/-! ## The append loop -/

theorem storeFind_storeWriteSeq (es : List Elem) (m : List (Nat × Elem)) (base j : Nat) :
    storeFind (storeWriteSeq m base es) j =
      if base ≤ j ∧ j < base + es.length then es[j - base]? else storeFind m j := by
  induction es generalizing m base with
  | nil => simp [storeWriteSeq]
  | cons e es ih =>
    simp only [storeWriteSeq, ih, storeFind_storeWrite, List.length_cons]
    by_cases h1 : base = j
    · subst h1; simp
    · by_cases h2 : base + 1 ≤ j ∧ j < base + 1 + es.length
      · have h3 : base ≤ j ∧ j < base + (es.length + 1) := by omega
        have h4 : j - base = (j - (base + 1)) + 1 := by omega
        rw [if_pos h2, if_pos h3, h4, List.getElem?_cons_succ]
      · have h3 : ¬ (base ≤ j ∧ j < base + (es.length + 1)) := by omega
        rw [if_neg h2, if_neg h3, if_neg h1]

/-- The append loop writes exactly the slots `base .. base + len`, in order. -/
theorem slotRead_storeWriteSeq (c : Config) (ep : Nat) (es : List Elem) (m : List (Nat × Elem)) (base j : Nat) :
    slotRead c ep (storeWriteSeq m base es) j =
      if h : base ≤ j ∧ j < base + es.length then es[j - base]'(by omega) else slotRead c ep m j := by
  unfold slotRead
  rw [storeFind_storeWriteSeq]
  by_cases h : base ≤ j ∧ j < base + es.length
  · rw [if_pos h, dif_pos h, List.getElem?_eq_getElem (by omega)]
  · rw [if_neg h, dif_neg h]

theorem storeWriteSeq_wf {m : List (Nat × Elem)} (h : Memory.wf m = true) (base : Nat) (es : List Elem) :
    Memory.wf (storeWriteSeq m base es) = true := by
  induction es generalizing m base with
  | nil => exact h
  | cons e es ih => exact ih (storeWrite_wf h base e) (base + 1)

theorem mem_storeWriteSeq {es : List Elem} {m : List (Nat × Elem)} {base : Nat} {x : Nat × Elem}
    (h : x ∈ storeWriteSeq m base es) : x ∈ m ∨ (base ≤ x.1 ∧ x.1 < base + es.length ∧ x.2 ∈ es) := by
  induction es generalizing m base with
  | nil => exact .inl h
  | cons e es ih =>
    rcases ih h with h | ⟨h1, h2, h3⟩
    · rcases mem_storeWrite h with rfl | h
      · right; simp
      · exact .inl h
    · right
      refine ⟨by omega, ?_, List.mem_cons_of_mem _ h3⟩
      simp only [List.length_cons]; omega

/-! ## The compaction loop -/

/-- The compaction loop puts into slot `i` of `at_ .. at_ + n` what slot `i + amount` held, and writes no other slot. -/
theorem slotRead_storeMoveDown (c : Config) (ep amount : Nat) (n : Nat) (m : List (Nat × Elem)) (at_ j : Nat) :
    slotRead c ep (storeMoveDown c ep amount m at_ n) j =
      if at_ ≤ j ∧ j < at_ + n then slotRead c ep m (j + amount) else slotRead c ep m j := by
  induction n generalizing m at_ with
  | zero => simp [storeMoveDown]
  | succ n ih =>
    simp only [storeMoveDown, ih, slotRead_storeWrite]
    by_cases h1 : at_ = j
    · subst h1; simp
    · by_cases h2 : at_ + 1 ≤ j ∧ j < at_ + 1 + n
      · have h3 : at_ ≤ j ∧ j < at_ + (n + 1) := by omega
        have h4 : ¬ at_ = j + amount := by omega
        rw [if_pos h2, if_pos h3, if_neg h4]
      · have h3 : ¬ (at_ ≤ j ∧ j < at_ + (n + 1)) := by omega
        rw [if_neg h2, if_neg h3, if_neg h1]

theorem storeMoveDown_wf {m : List (Nat × Elem)} (h : Memory.wf m = true) (c : Config) (ep amount at_ n : Nat) :
    Memory.wf (storeMoveDown c ep amount m at_ n) = true := by
  induction n generalizing m at_ with
  | zero => exact h
  | succ n ih => exact ih (storeWrite_wf h _ _) (at_ + 1)

/-- Every listed slot after the loop was listed before, or lies in the range written and fits. -/
theorem mem_storeMoveDown {c : Config} {ep amount n : Nat} {m : List (Nat × Elem)} {at_ : Nat} {x : Nat × Elem}
    (hm : ∀ y ∈ m, y.2 < 2 ^ c.elemW) (h : x ∈ storeMoveDown c ep amount m at_ n) :
    x ∈ m ∨ (at_ ≤ x.1 ∧ x.1 < at_ + n ∧ x.2 < 2 ^ c.elemW) := by
  induction n generalizing m at_ with
  | zero => exact .inl h
  | succ n ih =>
    have hfit : slotRead c ep m (at_ + amount) < 2 ^ c.elemW := slotRead_fits hm _ _
    have hm' : ∀ y ∈ storeWrite m at_ (slotRead c ep m (at_ + amount)), y.2 < 2 ^ c.elemW := by
      intro y hy
      rcases mem_storeWrite hy with rfl | hy
      · exact hfit
      · exact hm y hy
    rcases ih hm' h with h | ⟨h1, h2, h3⟩
    · rcases mem_storeWrite h with rfl | h
      · right; exact ⟨le_refl _, by simp, hfit⟩
      · exact .inl h
    · right; exact ⟨by omega, by omega, h3⟩

/-- The compaction loop writes every slot of its range and unwrites none. -/
theorem storeFind_storeMoveDown_isSome (c : Config) (ep amount n : Nat) (m : List (Nat × Elem)) (at_ j : Nat) :
    (storeFind (storeMoveDown c ep amount m at_ n) j).isSome =
      (decide (at_ ≤ j ∧ j < at_ + n) || (storeFind m j).isSome) := by
  induction n generalizing m at_ with
  | zero => simp [storeMoveDown]
  | succ n ih =>
    rw [storeMoveDown, ih, storeFind_storeWrite]
    by_cases h1 : at_ = j
    · subst h1; simp
    · rw [if_neg h1]
      congr 1
      simp only [decide_eq_decide]
      omega

/-! ## Ranges of slots and the valid data -/

@[simp] theorem slots_length (c : Config) (b : BufUnit) (base n : Nat) : (b.slots c base n).length = n := by
  induction n generalizing base with
  | zero => rfl
  | succ n ih => simp [BufUnit.slots, ih]

@[simp] theorem slots_getElem (c : Config) (b : BufUnit) (base n i : Nat) (h : i < (b.slots c base n).length) :
    (b.slots c base n)[i] = b.slot c (base + i) := by
  induction n generalizing base i with
  | zero => simp at h
  | succ n ih =>
    cases i with
    | zero => rfl
    | succ i =>
      simp only [BufUnit.slots, List.getElem_cons_succ]
      rw [ih]
      congr 1
      omega

@[simp] theorem contents_length (c : Config) (b : BufUnit) : (b.contents c).length = b.count := slots_length ..

@[simp] theorem contents_getElem (c : Config) (b : BufUnit) (i : Nat) (h : i < (b.contents c).length) :
    (b.contents c)[i] = b.slot c i := by
  simp [BufUnit.contents]

/-- The valid data depends on the count, the epoch and the slots below the count only. -/
theorem contents_congr {c : Config} {b b' : BufUnit} (hc : b.count = b'.count)
    (hs : ∀ i < b.count, b.slot c i = b'.slot c i) : b.contents c = b'.contents c := by
  apply List.ext_getElem
  · simp [hc]
  · intro i h1 h2
    simp only [contents_getElem]
    exact hs i (by simpa using h1)

/-! ## The two updates of the BUF unit -/

@[simp] theorem append_count (b : BufUnit) (es : List Elem) : (b.append es).count = b.count + es.length := rfl
@[simp] theorem append_cap (b : BufUnit) (es : List Elem) : (b.append es).cap = b.cap := rfl
@[simp] theorem append_valid (b : BufUnit) (es : List Elem) : (b.append es).valid = b.valid := rfl
@[simp] theorem append_epoch (b : BufUnit) (es : List Elem) : (b.append es).epoch = b.epoch := rfl

/-- Every slot after an append. -/
theorem append_slot (c : Config) (b : BufUnit) (es : List Elem) (j : Nat) :
    (b.append es).slot c j =
      if h : b.count ≤ j ∧ j < b.count + es.length then es[j - b.count]'(by omega) else b.slot c j := by
  simp only [BufUnit.append, BufUnit.slot, slotRead_storeWriteSeq]

@[simp] theorem removeFront_cap (c : Config) (b : BufUnit) (n : Nat) : (b.removeFront c n).cap = b.cap := by
  unfold BufUnit.removeFront; dsimp only; split <;> rfl
@[simp] theorem removeFront_valid (c : Config) (b : BufUnit) (n : Nat) : (b.removeFront c n).valid = b.valid := by
  unfold BufUnit.removeFront; dsimp only; split <;> rfl
@[simp] theorem removeFront_epoch (c : Config) (b : BufUnit) (n : Nat) : (b.removeFront c n).epoch = b.epoch := by
  unfold BufUnit.removeFront; dsimp only; split <;> rfl
@[simp] theorem removeFront_count (c : Config) (b : BufUnit) (n : Nat) :
    (b.removeFront c n).count = b.count - n := by
  unfold BufUnit.removeFront; dsimp only; split
  · next h => simp [h]
  · rfl

/-- Every slot after a removal: the slots of the remaining data hold what stood `n` higher, every other slot is kept, and
when nothing remains no slot moves. -/
theorem removeFront_slot (c : Config) (b : BufUnit) (n j : Nat) :
    (b.removeFront c n).slot c j = if j < b.count - n then b.slot c (j + n) else b.slot c j := by
  unfold BufUnit.removeFront
  dsimp only
  split
  · next h => rw [if_neg (by omega)]; rfl
  · simp only [BufUnit.slot, slotRead_storeMoveDown]
    simp

/-- The valid data after an append. -/
theorem append_contents (c : Config) (b : BufUnit) (es : List Elem) :
    (b.append es).contents c = b.contents c ++ es := by
  apply List.ext_getElem
  · simp
  · intro i h1 h2
    simp only [contents_length, append_count] at h1
    simp only [contents_getElem, append_slot, List.getElem_append, contents_length]
    by_cases h : i < b.count
    · rw [dif_pos h, dif_neg (by omega)]
    · rw [dif_neg h, dif_pos (by omega)]

/-- The valid data after a removal. -/
theorem removeFront_contents (c : Config) (b : BufUnit) (n : Nat) :
    (b.removeFront c n).contents c = (b.contents c).drop n := by
  apply List.ext_getElem
  · simp
  · intro i h1 h2
    simp only [contents_length, removeFront_count] at h1
    simp only [contents_getElem, List.getElem_drop, removeFront_slot, h1, if_true]
    rw [Nat.add_comm]

/-- The copy `BUF.GETDATA` makes is the front of the valid data. -/
theorem slots_zero_eq_take (c : Config) (b : BufUnit) (n : Nat) (h : n ≤ b.count) :
    b.slots c 0 n = (b.contents c).take n := by
  apply List.ext_getElem
  · simp [h]
  · intro i h1 h2
    simp

end Sys2Proof.Machine
end

