-- ==== Sys2Proof/Laws/Exec.lean ====
section
/-! SUPPORT. Everything a command can do, said once: the shape of its next state, and that no earlier response is read. -/

namespace Sys2Proof.Machine

open Sys2Proof

/-- No command reads the response port. -/
theorem exec_setResp (i : Instr) (s : State) (a : Option Response) : exec i (s.setResp a) = exec i s := by
  cases i <;> rfl

/-- A command on the BUF unit behind the `NotConstructed` check. -/
theorem withBuffer_eq_next {s t : State} {k : Result} :
    withBuffer s k = .next t ↔
      (s.buf.valid = true ∧ k = .next t) ∨ (s.buf.valid = false ∧ t = s.setResp (some (errorResponse .notConstructed))) := by
  unfold withBuffer
  cases s.buf.valid <;> simp [raise_eq_next, errorResponse]

theorem withBuffer_eq_refused {s : State} {k : Result} {w : Refusal} :
    withBuffer s k = .refused w ↔ s.buf.valid = true ∧ k = .refused w := by
  unfold withBuffer
  cases s.buf.valid <;> simp [raise]

/-- What each command can answer with a next state: what it writes to the two units, and its response. -/
theorem exec_next_cases {i : Instr} {s t : State} (h : exec i s = .next t) :
    (∃ v out c b, t = ((s.setCrc c).setBuf b).setResp (some (okResponse v out))) ∨
    (∃ e, t = s.setResp (some (errorResponse e))) := by
  have ok : ∀ {u : State} {v : Nat} {out : List Elem} {c : CrcUnit} {b : BufUnit}, u = (s.setCrc c).setBuf b →
      respond v out u = .next t →
      ∃ v out c b, t = ((s.setCrc c).setBuf b).setResp (some (okResponse v out)) := by
    rintro u v out c b rfl hr
    exact ⟨v, out, c, b, respond_eq_next.1 hr⟩
  have err : ∀ {e : ErrorKind}, raise e s = .next t → ∃ e, t = s.setResp (some (errorResponse e)) :=
    fun {e} hr => ⟨e, raise_eq_next.1 hr⟩
  have nb : t = s.setResp (some (errorResponse .notConstructed)) → ∃ e, t = s.setResp (some (errorResponse e)) :=
    fun hr => ⟨_, hr⟩
  cases i with
  | crcCreate sel => exact .inl (ok (c := ⟨selParams sel, (selParams sel).initialValue⟩) (b := s.buf) rfl h)
  | crcReset =>
    exact .inl (ok (u := s.setReg _) (c := (s.setReg s.crc.params.initialValue).crc) (b := s.buf) rfl h)
  | crcUpdate c =>
    exact .inl (ok (u := s.setReg _) (c := (s.setReg (crcByte s.crc.params s.crc.reg c)).crc) (b := s.buf) rfl h)
  | crcGetResult =>
    exact .inl (ok (u := s.setReg _) (c := (s.setReg (crcOut s.crc.params s.crc.reg)).crc) (b := s.buf) rfl h)
  | crcCompute sel start length data =>
    simp only [exec, execCrcCompute] at h
    split at h
    · exact .inl (ok (c := s.crc) (b := s.buf) rfl h)
    · split at h
      · exact .inl (ok (c := s.crc) (b := s.buf) rfl h)
      · exact .inr (err h)
  | bufCreate n =>
    simp only [exec, execBufCreate] at h
    split at h
    · exact .inr (err h)
    · split at h
      · exact absurd h (by simp)
      · exact .inl (ok (c := s.crc) rfl h)
  | bufAdd n items =>
    rcases withBuffer_eq_next.1 h with ⟨-, h⟩ | ⟨-, h⟩
    · split at h
      · exact absurd h (by simp)
      · split at h
        · exact absurd h (by simp)
        · split at h
          · exact .inl (ok (c := s.crc) rfl h)
          · exact .inr (err h)
    · exact .inr (nb h)
  | bufCount =>
    rcases withBuffer_eq_next.1 h with ⟨-, h⟩ | ⟨-, h⟩
    · exact .inl (ok (c := s.crc) (b := s.buf) rfl h)
    · exact .inr (nb h)
  | bufHasData =>
    rcases withBuffer_eq_next.1 h with ⟨-, h⟩ | ⟨-, h⟩
    · exact .inl (ok (c := s.crc) (b := s.buf) rfl h)
    · exact .inr (nb h)
  | bufHasDataN n =>
    rcases withBuffer_eq_next.1 h with ⟨-, h⟩ | ⟨-, h⟩
    · exact .inl (ok (c := s.crc) (b := s.buf) rfl h)
    · exact .inr (nb h)
  | bufPeek n =>
    rcases withBuffer_eq_next.1 h with ⟨-, h⟩ | ⟨-, h⟩
    · split at h
      · exact .inl (ok (c := s.crc) (b := s.buf) rfl h)
      · exact .inr (err h)
    · exact .inr (nb h)
  | bufGetData n =>
    rcases withBuffer_eq_next.1 h with ⟨-, h⟩ | ⟨-, h⟩
    · split at h
      · exact .inl (ok (c := s.crc) rfl h)
      · exact .inr (err h)
    · exact .inr (nb h)
  | bufRemove n =>
    rcases withBuffer_eq_next.1 h with ⟨-, h⟩ | ⟨-, h⟩
    · split at h
      · exact .inl (ok (c := s.crc) rfl h)
      · exact absurd h (by simp)
    · exact .inr (nb h)
  | bufClear =>
    rcases withBuffer_eq_next.1 h with ⟨-, h⟩ | ⟨-, h⟩
    · exact .inl (ok (c := s.crc) rfl h)
    · exact .inr (nb h)

/-- Every command that completes is answered, and outside the two units nothing changes. -/
theorem exec_answered {i : Instr} {s t : State} (h : exec i s = .next t) : ∃ a, Answered s t a := by
  rcases exec_next_cases h with ⟨v, out, c, b, rfl⟩ | ⟨e, rfl⟩
  · exact ⟨okResponse v out, by simp [Answered]⟩
  · exact ⟨errorResponse e, by simp [Answered]⟩

/-! ## The two units share no state -/

/-- The same answer with its next state changed by `f`. -/
def onNext (f : State → State) : Result → Result
  | .next t => .next (f t)
  | .fault x => .fault x
  | .refused w => .refused w

/-- A BUF command does not read the CRC unit. -/
theorem exec_setCrc {i : Instr} (hb : i.isBuf = true) (s : State) (c : CrcUnit) :
    exec i (s.setCrc c) = onNext (fun t => t.setCrc c) (exec i s) := by
  have wb : ∀ k, withBuffer (s.setCrc c) (onNext (fun t => t.setCrc c) k) =
      onNext (fun t => t.setCrc c) (withBuffer s k) := by
    intro k
    unfold withBuffer
    cases h : s.buf.valid
    · simp [h]; rfl
    · simp [h]
  cases i with
  | crcCreate => simp [Instr.isBuf] at hb
  | crcReset => simp [Instr.isBuf] at hb
  | crcUpdate => simp [Instr.isBuf] at hb
  | crcGetResult => simp [Instr.isBuf] at hb
  | crcCompute => simp [Instr.isBuf] at hb
  | bufCreate n =>
    simp only [exec, execBufCreate]
    by_cases h1 : n < 1
    · simp only [h1, if_true]; rfl
    · by_cases h2 : s.cfg.nmax < n.toNat
      · simp only [h1, h2, if_true, if_false, setCrc_cfg]; rfl
      · simp only [h1, h2, if_false, setCrc_cfg]; rfl
  | bufAdd n items =>
    simp only [exec, execBufAdd]
    rw [← wb]
    congr 1
    by_cases h1 : n < 0
    · simp only [h1, if_true]; rfl
    · by_cases h2 : (items.length : Int) < n
      · simp only [h1, h2, if_true, if_false]; rfl
      · cases h3 : addFits s.buf n <;> simp [h1, h2, h3] <;> rfl
  | bufCount => exact wb (respond s.buf.count [] s)
  | bufHasData => exact wb (respond (boolValue (hasData s.buf)) [] s)
  | bufHasDataN n => exact wb (respond (boolValue (hasDataN s.buf n)) [] s)
  | bufPeek n =>
    simp only [exec, execBufPeek]
    rw [← wb]
    congr 1
    cases h : indexInRange s.buf n <;> simp [h] <;> rfl
  | bufGetData n =>
    simp only [exec, execBufGetData]
    rw [← wb]
    congr 1
    cases h : amountAvailable s.buf n <;> simp [h] <;> rfl
  | bufRemove n =>
    simp only [exec, execBufRemove]
    rw [← wb]
    congr 1
    cases h : removeDefined s.buf n <;> simp [h] <;> rfl
  | bufClear => exact wb (respond 0 [] (s.setBuf { s.buf with count := 0 }))

/-- A CRC command does not read the BUF unit. -/
theorem exec_setBuf {i : Instr} (hb : i.isBuf = false) (s : State) (b : BufUnit) :
    exec i (s.setBuf b) = onNext (fun t => t.setBuf b) (exec i s) := by
  cases i with
  | crcCreate => rfl
  | crcReset => rfl
  | crcUpdate => rfl
  | crcGetResult => rfl
  | crcCompute =>
    simp only [exec, execCrcCompute]
    split_ifs <;> rfl
  | _ => simp [Instr.isBuf] at hb

/-- A CRC command always completes and keeps the BUF unit. -/
theorem exec_crc_next {i : Instr} (hb : i.isBuf = false) (s : State) : ∃ t, exec i s = .next t ∧ t.buf = s.buf := by
  cases i with
  | crcCreate => exact ⟨_, rfl, rfl⟩
  | crcReset => exact ⟨_, rfl, rfl⟩
  | crcUpdate => exact ⟨_, rfl, rfl⟩
  | crcGetResult => exact ⟨_, rfl, rfl⟩
  | crcCompute =>
    simp only [exec, execCrcCompute]
    split_ifs <;> exact ⟨_, rfl, rfl⟩
  | _ => simp [Instr.isBuf] at hb

/-- A BUF command keeps the CRC unit. -/
theorem exec_buf_crc {i : Instr} {s t : State} (hb : i.isBuf = true) (h : exec i s = .next t) : t.crc = s.crc := by
  have hs := exec_setCrc hb s s.crc
  rw [show s.setCrc s.crc = s from rfl, h] at hs
  simp only [onNext, Host.Outcome.next.injEq] at hs
  rw [hs]; rfl

end Sys2Proof.Machine
end

