-- ==== Sys2Proof/Laws/Inv.lean ====
section
/-! SUPPORT. The BUF unit's invariant through each operation on the store, and what fits a response's value. -/

namespace Sys2Proof.Machine

open Sys2Proof

/-- Appending elements that fit and have room keeps the BUF unit legal. -/
theorem append_inv {c : Config} {b : BufUnit} (h : BufInv c b) (hv : b.valid = true) {es : List Elem}
    (hes : ∀ e ∈ es, e < 2 ^ c.elemW) (hfit : b.count + es.length ≤ b.cap) : BufInv c (b.append es) := by
  obtain ⟨h1, h2, h3, -, h5⟩ := h
  refine ⟨storeWriteSeq_wf h1 _ _, ?_, h3, fun _ => hfit, ?_⟩
  · intro x hx
    rcases mem_storeWriteSeq hx with hx | ⟨-, hx2, hx3⟩
    · exact h2 x hx
    · exact ⟨by have := h3 hv; omega, hes _ hx3⟩
  · intro _ i hi
    simp only [append_count] at hi
    simp only [BufUnit.append, storeFind_storeWriteSeq]
    split_ifs with hc
    · rw [List.getElem?_eq_getElem (by omega)]; rfl
    · exact h5 hv i (by omega)

/-- Removing from the front keeps the BUF unit legal. -/
theorem removeFront_inv {c : Config} {b : BufUnit} (h : BufInv c b) (hv : b.valid = true) {n : Nat} :
    BufInv c (b.removeFront c n) := by
  obtain ⟨h1, h2, h3, h4, -⟩ := h
  have hc := h4 hv
  have hk := h3 hv
  unfold BufUnit.removeFront
  simp only
  split
  · exact ⟨h1, h2, h3, fun _ => by simp, fun _ i hi => by simp at hi⟩
  · refine ⟨storeMoveDown_wf h1 .., ?_, h3, fun _ => by simp only; omega, ?_⟩
    · intro x hx
      rcases mem_storeMoveDown (fun y hy => (h2 y hy).2) hx with hx | ⟨-, hx2, hx3⟩
      · exact h2 x hx
      · exact ⟨by omega, hx3⟩
    · intro _ i hi
      simp only at hi
      rw [storeFind_storeMoveDown_isSome]
      simp [hi]

/-- Every slot of a legal BUF unit reads as an element that fits, written or not. -/
theorem slot_fits {c : Config} {b : BufUnit} (h : BufInv c b) (i : Nat) : b.slot c i < 2 ^ c.elemW :=
  slotRead_fits (fun x hx => (h.storeFits x hx).2) _ _

theorem slots_fit {c : Config} {b : BufUnit} (h : BufInv c b) (base n : Nat) :
    ∀ e ∈ b.slots c base n, e < 2 ^ c.elemW := by
  induction n generalizing base with
  | zero => simp [BufUnit.slots]
  | succ n ih =>
    intro e he
    rcases List.mem_cons.1 he with rfl | he
    · exact slot_fits h _
    · exact ih _ e he

/-- A number of 24 bits fits the response's value. -/
theorem lt_valW_of_lt_24 (c : Config) {n : Nat} (h : n < 2 ^ 24) : n < 2 ^ c.valW :=
  lt_of_lt_of_le h (Nat.pow_le_pow_right (by omega) (by unfold Config.valW; omega))

/-- An element fits the response's value. -/
theorem lt_valW_of_lt_elemW (c : Config) {n : Nat} (h : n < 2 ^ c.elemW) : n < 2 ^ c.valW :=
  lt_of_lt_of_le h (Nat.pow_le_pow_right (by omega) (by unfold Config.valW; omega))

/-- A CRC fits the response's value. -/
theorem crc_lt_valW (c : Config) (r : Word) : r.toNat < 2 ^ c.valW := lt_valW_of_lt_24 c (by have := r.isLt; omega)

theorem errorResponse_legal (c : Config) (e : ErrorKind) : ResponseLegal c (errorResponse e) := by
  simp [ResponseLegal, errorResponse]

theorem okResponse_legal {c : Config} {v : Nat} {out : List Elem} (hv : v < 2 ^ c.valW)
    (ho : ∀ e ∈ out, e < 2 ^ c.elemW) : ResponseLegal c (okResponse v out) := ⟨hv, ho, fun h => absurd rfl h⟩

end Sys2Proof.Machine
end

