-- ==== Sys2Proof/Laws/PerInstr.lean ====
section
/-! SUPPORT. Statements made for every command, one lemma per constructor (LAWS.json). -/

namespace Sys2Proof.Laws

open Sys2Proof

/-- The encoder puts every command into its own row of the opcode map: the word of `encode i` selects the row of
`i`'s mnemonic, whatever the operands (30_encoding.md R54, R59). -/
def EncodedRow.Statement (i : Instr) : Prop := (rowOf i.mnemonic).selects (encode i).cw = true

theorem EncodedRow.crcCreate (sel : ParamSel) : EncodedRow.Statement (.crcCreate sel) := by
  cases sel <;> exact rowOf_selects.2 (by simp [Instr.mnemonic, encode, selCode, selMask, aMask, bMask])

theorem EncodedRow.crcReset : EncodedRow.Statement .crcReset := by
  unfold EncodedRow.Statement; decide

theorem EncodedRow.crcUpdate (c : Byte) : EncodedRow.Statement (.crcUpdate c) := by
  refine rowOf_selects.2 ⟨by simp [Instr.mnemonic, encode, plainRequest], by simp [encode, plainRequest],
    by simp [encode, plainRequest], ?_⟩
  simp only [Instr.mnemonic, encode, plainRequest, bField_packCw, bMask]
  apply BitVec.eq_of_getLsbD_eq
  intro i hi
  have hm : ∀ i < 24, 8 ≤ i ∨ (0xFFFF00#24).getLsbD i = false := by decide
  simp only [BitVec.getLsbD_and, BitVec.getLsbD_setWidth, BitVec.getLsbD_zero]
  rcases hm i hi with h | h
  · simp [BitVec.getLsbD_of_ge c i h]
  · simp [h]

theorem EncodedRow.crcGetResult : EncodedRow.Statement .crcGetResult := by
  unfold EncodedRow.Statement; decide

theorem EncodedRow.crcCompute (sel : ParamSel) (start length : Int) (data : List Byte) :
    EncodedRow.Statement (.crcCompute sel start length data) := by
  cases sel <;> exact rowOf_selects.2 (by simp [Instr.mnemonic, encode, selCode, selMask, aMask, bMask])

theorem EncodedRow.bufCreate (capacity : Int) : EncodedRow.Statement (.bufCreate capacity) :=
  rowOf_selects.2 (by simp [Instr.mnemonic, encode, plainRequest, aMask, bMask])

theorem EncodedRow.bufAdd (n : Int) (items : List Elem) : EncodedRow.Statement (.bufAdd n items) :=
  rowOf_selects.2 (by simp [Instr.mnemonic, encode, plainRequest, aMask, bMask])

theorem EncodedRow.bufCount : EncodedRow.Statement .bufCount := by
  unfold EncodedRow.Statement; decide

theorem EncodedRow.bufHasData : EncodedRow.Statement .bufHasData := by
  unfold EncodedRow.Statement; decide

theorem EncodedRow.bufHasDataN (amount : Int) : EncodedRow.Statement (.bufHasDataN amount) :=
  rowOf_selects.2 (by simp [Instr.mnemonic, encode, plainRequest, aMask, bMask])

theorem EncodedRow.bufPeek (index : Int) : EncodedRow.Statement (.bufPeek index) :=
  rowOf_selects.2 (by simp [Instr.mnemonic, encode, plainRequest, aMask, bMask])

theorem EncodedRow.bufGetData (amount : Int) : EncodedRow.Statement (.bufGetData amount) :=
  rowOf_selects.2 (by simp [Instr.mnemonic, encode, plainRequest, aMask, bMask])

theorem EncodedRow.bufRemove (amount : Int) : EncodedRow.Statement (.bufRemove amount) :=
  rowOf_selects.2 (by simp [Instr.mnemonic, encode, plainRequest, aMask, bMask])

theorem EncodedRow.bufClear : EncodedRow.Statement .bufClear := by
  unfold EncodedRow.Statement; decide

end Sys2Proof.Laws
end

