-- ==== Sys2Proof/Laws/Step.lean ====
section
/-! SUPPORT. The requesters, and everything a step can do, said once. -/

namespace Sys2Proof.Machine

open Sys2Proof

/-! ## Who is waiting -/

theorem waitingFrom_eq_nil {k : Nat} {rs : List Requester} :
    waitingFrom k rs = [] ↔ ∀ r, outstandingOf rs r = none := by
  induction rs generalizing k with
  | nil => simp [waitingFrom, outstandingOf]
  | cons q qs ih =>
    simp only [waitingFrom]
    constructor
    · intro h r
      split at h
      · simp at h
      · next hq =>
        cases r with
        | zero => simpa [outstandingOf] using hq
        | succ r => simpa [outstandingOf] using ih.1 h r
    · intro h
      have h0 : q.outstanding = none := by simpa [outstandingOf] using h 0
      rw [h0]
      exact ih.2 fun r => by simpa [outstandingOf] using h (r + 1)

/-- Nobody is waiting exactly when no requester has a command outstanding. -/
theorem waiting_eq_nil {rs : List Requester} : waiting rs = [] ↔ ∀ r, outstandingOf rs r = none := waitingFrom_eq_nil

theorem mem_waitingFrom {k r : Nat} {rs : List Requester} :
    r ∈ waitingFrom k rs ↔ k ≤ r ∧ (outstandingOf rs (r - k)).isSome = true := by
  induction rs generalizing k with
  | nil => simp [waitingFrom, outstandingOf]
  | cons q qs ih =>
    have hrec : r ∈ waitingFrom (k + 1) qs ↔ k + 1 ≤ r ∧ (outstandingOf (q :: qs) (r - k)).isSome = true := by
      rw [ih]
      refine and_congr_right fun hk => ?_
      rw [show r - k = (r - (k + 1)) + 1 by omega]
      simp [outstandingOf]
    have h0 : (outstandingOf (q :: qs) 0).isSome = q.outstanding.isSome := by simp [outstandingOf]
    simp only [waitingFrom]
    by_cases hq : q.outstanding.isSome = true
    · rw [if_pos hq, List.mem_cons, hrec]
      constructor
      · rintro (rfl | ⟨h1, h2⟩)
        · simp [h0, hq]
        · exact ⟨by omega, h2⟩
      · rintro ⟨h1, h2⟩
        by_cases hk : r = k
        · exact .inl hk
        · exact .inr ⟨by omega, h2⟩
    · rw [if_neg hq, hrec]
      constructor
      · rintro ⟨h1, h2⟩
        exact ⟨by omega, h2⟩
      · rintro ⟨h1, h2⟩
        refine ⟨?_, h2⟩
        by_contra hk
        rw [show r - k = 0 by omega, h0] at h2
        exact hq h2

/-- The waiting requesters are the ones with a command outstanding. -/
theorem mem_waiting {r : Nat} {rs : List Requester} : r ∈ waiting rs ↔ (outstandingOf rs r).isSome = true := by
  simp [waiting, mem_waitingFrom]

theorem freeChoice_mem {ws : List Nat} {n r : Nat} (h : freeChoice ws n = some r) : r ∈ ws := by
  match ws, h with
  | [a], h => simp [freeChoice] at h; simp [h]
  | a :: b :: cs, h => exact List.mem_of_getElem? h

/-- The choice gives nobody exactly when nobody waits. -/
theorem freeChoice_eq_none {ws : List Nat} {n : Nat} : freeChoice ws n = none ↔ ws = [] := by
  match ws with
  | [] => simp [freeChoice]
  | [a] => simp [freeChoice]
  | a :: b :: cs =>
    simp only [freeChoice, List.getElem?_eq_none_iff, List.length_cons]
    have : Config.freeGrant n % (cs.length + 2) < cs.length + 2 := Nat.mod_lt _ (by omega)
    constructor
    · intro h; omega
    · intro h; simp at h

/-! ## Delivery -/

@[simp] theorem deliverTo_cfg (r : Nat) (s : State) : (deliverTo r s).cfg = s.cfg := rfl
@[simp] theorem deliverTo_crc (r : Nat) (s : State) : (deliverTo r s).crc = s.crc := rfl
@[simp] theorem deliverTo_buf (r : Nat) (s : State) : (deliverTo r s).buf = s.buf := rfl
@[simp] theorem deliverTo_resp (r : Nat) (s : State) : (deliverTo r s).resp = none := rfl
@[simp] theorem deliverTo_inputs (r : Nat) (s : State) : (deliverTo r s).inputs = s.inputs := rfl
@[simp] theorem deliverTo_draws (r : Nat) (s : State) : (deliverTo r s).draws = s.draws := rfl
@[simp] theorem deliverTo_reqs_length (r : Nat) (s : State) : (deliverTo r s).reqs.length = s.reqs.length := by
  simp [deliverTo]

theorem deliverTo_reqs_other {r r' : Nat} (h : r' ≠ r) (s : State) : (deliverTo r s).reqs[r']? = s.reqs[r']? := by
  simp [deliverTo, h.symm]

theorem deliverTo_reqs_self {r : Nat} {s : State} {q : Requester} (h : s.reqs[r]? = some q) :
    (deliverTo r s).reqs[r]? = some { outstanding := none, received := q.received ++ s.resp.toList } := by
  simp [deliverTo, h]

/-- After delivery the requester has nothing outstanding. -/
theorem deliverTo_outstanding_self (r : Nat) (s : State) : outstandingOf (deliverTo r s).reqs r = none := by
  cases h : s.reqs[r]? with
  | none => simp [outstandingOf, deliverTo, h]
  | some q => simp [outstandingOf, deliverTo_reqs_self h]

theorem outstandingOf_some {rs : List Requester} {r : Nat} {q : Request} (h : outstandingOf rs r = some q) :
    ∃ rq, rs[r]? = some rq ∧ rq.outstanding = some q := by
  unfold outstandingOf at h
  cases hr : rs[r]? with
  | none => simp [hr] at h
  | some rq => exact ⟨rq, rfl, by simpa [hr] using h⟩

/-- Delivery appends the response in the port to what the requester was given. -/
theorem deliverTo_receivedBy {r : Nat} {s : State} {q : Request} (h : outstandingOf s.reqs r = some q) :
    receivedBy (deliverTo r s) r = receivedBy s r ++ s.resp.toList := by
  obtain ⟨rq, hr, -⟩ := outstandingOf_some h
  simp [receivedBy, deliverTo_reqs_self hr, hr]

/-! ## A grant -/

/-- What a grant can do: nothing where nothing is outstanding; answer `IllegalCommand`; or run the decoded command and
deliver its response. -/
theorem grantRequester_next_cases {r : Nat} {s t : State} (h : grantRequester r s = .next t) :
    (outstandingOf s.reqs r = none ∧ t = s) ∨
    ∃ q, outstandingOf s.reqs r = some q ∧
      ((∃ why, decode q = .error why ∧ t = deliverTo r (s.setResp (some (errorResponse .illegalCommand)))) ∨
       (∃ i u, decode q = .ok i ∧ (i.streaming = true → streamingElsewhere s.reqs r = false) ∧
          exec i s = .next u ∧ t = deliverTo r u)) := by
  unfold grantRequester at h
  cases ho : outstandingOf s.reqs r with
  | none =>
    rw [ho] at h
    exact .inl ⟨rfl, by simpa using h.symm⟩
  | some q =>
    rw [ho] at h
    refine .inr ⟨q, rfl, ?_⟩
    cases hd : decode q with
    | error why =>
      simp only [hd, raise, deliver, Host.Outcome.next.injEq] at h
      exact .inl ⟨why, rfl, h.symm⟩
    | ok i =>
      simp only [hd] at h
      split at h
      · simp at h
      · next hs =>
        cases he : exec i s with
        | next u =>
          simp only [he, deliver, Host.Outcome.next.injEq] at h
          refine .inr ⟨i, u, rfl, fun hi => ?_, he, h.symm⟩
          simpa [hi] using hs
        | fault x => exact nomatch x
        | refused w => simp [he, deliver] at h

/-- A grant that answers, in one form: the state it delivers from differs from `s` in the units and the port only. -/
theorem grantRequester_answers {r : Nat} {s t : State} {q : Request} (h : grantRequester r s = .next t)
    (ho : outstandingOf s.reqs r = some q) : ∃ u a, Answered s u a ∧ t = deliverTo r u := by
  rcases grantRequester_next_cases h with ⟨hn, -⟩ | ⟨q', -, ⟨why, -, rfl⟩ | ⟨i, u, -, -, he, rfl⟩⟩
  · rw [hn] at ho; cases ho
  · exact ⟨s.setResp (some (errorResponse .illegalCommand)), _, ⟨rfl, rfl, rfl, rfl, rfl⟩, rfl⟩
  · obtain ⟨a, ha⟩ := exec_answered he
    exact ⟨u, a, ha, rfl⟩

/-! ## A step -/

/-- Adding no inputs changes nothing. -/
@[simp] theorem prompted_nil (s : State) : prompted s [] = s := by
  unfold prompted
  rw [List.append_nil]; rfl

/-! ### What adding inputs leaves -/

@[simp] theorem prompted_cfg (s : State) (new : List Input) : (prompted s new).cfg = s.cfg := rfl
@[simp] theorem prompted_crc (s : State) (new : List Input) : (prompted s new).crc = s.crc := rfl
@[simp] theorem prompted_buf (s : State) (new : List Input) : (prompted s new).buf = s.buf := rfl
@[simp] theorem prompted_resp (s : State) (new : List Input) : (prompted s new).resp = s.resp := rfl
@[simp] theorem prompted_reqs (s : State) (new : List Input) : (prompted s new).reqs = s.reqs := rfl
@[simp] theorem prompted_inputs (s : State) (new : List Input) : (prompted s new).inputs = s.inputs ++ new := rfl
@[simp] theorem prompted_draws (s : State) (new : List Input) : (prompted s new).draws = s.draws := rfl

/-! ### What a grant starts from, and everything a step can do -/

/-- The state a grant starts from. -/
def beforeGrant (s : State) : State :=
  match s.inputs with
  | _ :: rest => s.setInputs rest
  | [] => s.setDraws (s.draws + 1)

@[simp] theorem beforeGrant_cfg (s : State) : (beforeGrant s).cfg = s.cfg := by unfold beforeGrant; split <;> rfl
@[simp] theorem beforeGrant_crc (s : State) : (beforeGrant s).crc = s.crc := by unfold beforeGrant; split <;> rfl
@[simp] theorem beforeGrant_buf (s : State) : (beforeGrant s).buf = s.buf := by unfold beforeGrant; split <;> rfl
@[simp] theorem beforeGrant_resp (s : State) : (beforeGrant s).resp = s.resp := by unfold beforeGrant; split <;> rfl
@[simp] theorem beforeGrant_reqs (s : State) : (beforeGrant s).reqs = s.reqs := by unfold beforeGrant; split <;> rfl
theorem beforeGrant_inputs (s : State) : (beforeGrant s).inputs = s.inputs.tail := by
  unfold beforeGrant; split <;> simp_all

/-- A step that grants `r` is the grant of `r`. -/
theorem step_of_grantsNow {r : Nat} {s : State} (h : grantsNow r s) : step s = grantRequester r (beforeGrant s) := by
  rcases h with h | ⟨hi, hc⟩
  · cases hs : s.inputs with
    | nil => simp [hs] at h
    | cons e rest =>
      rw [hs] at h
      obtain rfl : e = .grant r := by simpa using h
      simp [step, beforeGrant, hs, applyInput]
  · simp [step, beforeGrant, hi, runUnprompted, hc]

/-- Everything a step can do. -/
theorem step_next_cases {s t : State} (h : step s = .next t) :
    (∃ rest r q rq, s.inputs = .present r q :: rest ∧ s.reqs[r]? = some rq ∧ rq.outstanding = none ∧
      t = (s.setInputs rest).setReqs (s.reqs.set r { rq with outstanding := some q })) ∨
    (∃ rest, s.inputs = .hardReset :: rest ∧ waiting s.reqs = [] ∧ t = hardwareReset (s.setInputs rest)) ∨
    (∃ r, grantsNow r s ∧ grantRequester r (beforeGrant s) = .next t) ∨
    (s.inputs = [] ∧ waiting s.reqs = [] ∧ t = s) := by
  cases hs : s.inputs with
  | nil =>
    cases hc : freeChoice (waiting s.reqs) s.draws with
    | none =>
      simp only [step, hs, runUnprompted, hc, Host.Outcome.next.injEq] at h
      exact .inr (.inr (.inr ⟨rfl, freeChoice_eq_none.1 hc, h.symm⟩))
    | some r =>
      have hg : grantsNow r s := .inr ⟨hs, hc⟩
      exact .inr (.inr (.inl ⟨r, hg, by rw [← step_of_grantsNow hg]; exact h⟩))
  | cons e rest =>
    cases e with
    | present r q =>
      simp only [step, hs, applyInput, presentCommand, setInputs_reqs] at h
      split at h
      · simp at h
      · next rq hr =>
        split at h
        · simp at h
        · next ho =>
          refine .inl ⟨rest, r, q, rq, rfl, hr, by simpa using ho, ?_⟩
          simpa using h.symm
    | grant r =>
      have hg : grantsNow r s := .inl (by simp [hs])
      exact .inr (.inr (.inl ⟨r, hg, by rw [← step_of_grantsNow hg]; exact h⟩))
    | hardReset =>
      simp only [step, hs, applyInput, setInputs_reqs] at h
      by_cases hw : waiting s.reqs = []
      · refine .inr (.inl ⟨rest, rfl, hw, ?_⟩)
        simpa [hw] using h.symm
      · simp [hw] at h

end Sys2Proof.Machine
end

