-- ==== Sys2Proof/Tests/Slice0.lean ====
section
/-! SUPPORT. The model's own tests.  Expected values are those of 95_test_vectors.md (E1 to E13, V1 to V92) and of the
tables of 30_encoding.md R55, R59 and R66, cited at each test; none was read off the model.  After the tests, one witness
for the hypotheses of each statement that has any. -/

namespace Sys2Proof.Tests

open Sys2Proof Sys2Proof.Machine

/-! ## Small states -/

/-- `s9`, the ASCII bytes "123456789" (95_test_vectors.md, conventions). -/
def s9 : List Byte := [0x31, 0x32, 0x33, 0x34, 0x35, 0x36, 0x37, 0x38, 0x39]

/-- The reset state with another CRC unit. -/
def crcState (p : CrcParams) (r : Word) : State := State.reset.setCrc { params := p, reg := r }

/-- The reset state with a buffer of capacity `cap` holding `q`. -/
def bufState (cap : Nat) (q : List Elem) : State :=
  State.reset.setBuf { valid := true, cap := cap, count := q.length, store := storeWriteSeq [] 0 q, epoch := 0 }

/-- The start state of V70 to V86: capacity 4, valid data `[0x11, 0x22, 0x33]`. -/
def live : State := bufState 4 [0x11, 0x22, 0x33]

/-- `s` with requests outstanding, one per requester, and inputs pending. -/
def asked (s : State) (qs : List (Option Request)) (ins : List Input) : State :=
  (s.setReqs (qs.map fun q => { outstanding := q, received := [] })).setInputs ins

/-- The response of an answer. -/
def respOf : Result → Option Response
  | .next t => t.resp
  | .fault _ => none
  | .refused _ => none

/-- `CRC.reg` after an answer. -/
def regOf : Result → Option Word
  | .next t => some t.crc.reg
  | .fault _ => none
  | .refused _ => none

/-- The valid data after an answer. -/
def dataOf : Result → Option (List Elem)
  | .next t => some (t.buf.contents t.cfg)
  | .fault _ => none
  | .refused _ => none

/-- What requester 0 has been given after an answer. -/
def givenOf : Result → Option (List Response)
  | .next t => some (receivedBy t 0)
  | .fault _ => none
  | .refused _ => none

/-- The reason of a stop. -/
def stopOf : Result → Option Refusal
  | .next _ => none
  | .fault _ => none
  | .refused w => some w

/-- What a word and a parameter word decode to, the host sequences empty. -/
def dec (cw : BitVec 64) (pw : BitVec 96) : Option Instr :=
  match decode { cw := cw, pw := pw, data := [], items := [] } with
  | .ok i => some i
  | .error _ => none

/-- The record of V60's explicit example, X-25 (93_implementation_defined.md G1). -/
def x25 : CrcParams := ⟨0x1021, 0xFFFF, 0xFFFF, 0x8000, 0xFFFF, true, true⟩

/-! ## WellFormed smoke: one ill-formed term for each check -/

theorem test_config_standard_wf : Config.standard.wf = true := by decide
theorem test_config_elemW_zero : Config.wf { Config.standard with elemW := 0 } = false := by decide
theorem test_config_nmax_zero : Config.wf { Config.standard with nmax := 0 } = false := by decide
theorem test_config_nmax_too_large : Config.wf { Config.standard with nmax := 8388608 } = false := by decide
theorem test_config_nreq_zero : Config.wf { Config.standard with nreq := 0 } = false := by decide
theorem test_wf_create_above : Instr.wf Config.standard (.bufCreate 8388608) = false := by decide
theorem test_wf_create_below : Instr.wf Config.standard (.bufCreate (-8388609)) = false := by decide
theorem test_wf_compute_start : Instr.wf Config.standard (.crcCompute .xmodem 8388608 0 []) = false := by decide
theorem test_wf_compute_length : Instr.wf Config.standard (.crcCompute .xmodem 0 (-8388609) []) = false := by decide
theorem test_wf_add_count : Instr.wf Config.standard (.bufAdd 8388608 []) = false := by decide
theorem test_wf_add_element : Instr.wf Config.standard (.bufAdd 1 [256]) = false := by decide
theorem test_wf_hasDataN : Instr.wf Config.standard (.bufHasDataN 8388608) = false := by decide
theorem test_wf_peek : Instr.wf Config.standard (.bufPeek (-8388609)) = false := by decide
theorem test_wf_getData : Instr.wf Config.standard (.bufGetData 8388608) = false := by decide
theorem test_wf_remove : Instr.wf Config.standard (.bufRemove (-8388609)) = false := by decide
theorem test_wf_request_element : Request.wf Config.standard ⟨0x1100000000000001, 0, [], [0x11, 256]⟩ = false := by
  decide

/-! ## Decoding: words written out from R52, R55, R59 (R66, V60 to V64) -/

theorem test_decode_crcCreate_explicit :
    dec 0x0003000000000000 0x0003FFFF8000FFFFFFFF1021 = some (.crcCreate (.explicit x25)) := by decide
theorem test_decode_crcCreate_ignores_pw :
    dec 0x0002000000000000 0x0004FFFF8000FFFFFFFF1021 = some (.crcCreate .modbus) := by decide
theorem test_decode_crcReset : dec 0x0100000000000000 0 = some .crcReset := by decide
theorem test_decode_crcUpdate : dec 0x02000000000000FF 0 = some (.crcUpdate 0xFF) := by decide
theorem test_decode_crcGetResult : dec 0x0300000000000000 0 = some .crcGetResult := by decide
theorem test_decode_crcCompute : dec 0x0400FFFFFF000002 0 = some (.crcCompute .xmodem (-1) 2 []) := by decide
theorem test_decode_bufCreate_min : dec 0x1000000000800000 0 = some (.bufCreate (-8388608)) := by decide
theorem test_decode_bufAdd : dec 0x1100000000000003 0 = some (.bufAdd 3 []) := by decide
theorem test_decode_bufCount : dec 0x1200000000000000 0 = some .bufCount := by decide
theorem test_decode_bufHasData : dec 0x1300000000000000 0 = some .bufHasData := by decide
theorem test_decode_bufHasDataN : dec 0x1400000000000002 0 = some (.bufHasDataN 2) := by decide
theorem test_decode_bufPeek : dec 0x1500000000FFFFFF 0 = some (.bufPeek (-1)) := by decide
theorem test_decode_bufGetData : dec 0x1600000000000000 0 = some (.bufGetData 0) := by decide
theorem test_decode_bufRemove : dec 0x1700000000000001 0 = some (.bufRemove 1) := by decide
theorem test_decode_bufClear : dec 0x1800000000000000 0 = some .bufClear := by decide

/-- V62: the illegal words, with the reason R60 (f) for the last. -/
theorem test_decode_illegal :
    [0x2000000000000000, 0xFFFFFFFFFFFFFFFF, 0x0500000000000000, 0x1900000000000000, 0x0004000000000000,
      0x0404000000000003, 0x0000000000000001, 0x0000000001000000, 0x0100000000000001].all
        (fun w => dec w 0 == none) = true ∧
    [0x0101000000000000, 0x0200000000000100, 0x0200000001000041, 0x0300000000000001, 0x1001000000000004,
      0x1100000001000001, 0x1200000001000000, 0x1300000000000001, 0x1800000000000001].all
        (fun w => dec w 0 == none) = true ∧
    dec 0x0003000000000000 0x0004FFFF8000FFFFFFFF1021 = none := by decide

/-- V64: of the 256 opcodes with every other bit zero exactly 14 are legal. -/
theorem test_decode_opcodes :
    ((List.range 256).filter fun k => (dec (BitVec.ofNat 64 (k * 2 ^ 56)) 0).isSome) =
      [0x00, 0x01, 0x02, 0x03, 0x04, 0x10, 0x11, 0x12, 0x13, 0x14, 0x15, 0x16, 0x17, 0x18] := by decide +kernel

/-- V60: the parameter words of the presets and of the explicit example. -/
theorem test_pack :
    pack x25 = 0x0003FFFF8000FFFFFFFF1021 ∧ pack xmodemParams = 0x0000FFFF8000000000001021 ∧
    pack mcrf4xxParams = 0x0003FFFF80000000FFFF1021 ∧ pack modbusParams = 0x0003FFFF80000000FFFF8005 := by decide

/-- R66: the encoder's words. -/
theorem test_encode :
    (encode (.crcCompute .modbus 1 3 [1, 2, 3, 4])).cw = 0x0402000001000003 ∧
    (encode (.bufCreate (-1))).cw = 0x1000000000FFFFFF ∧ (encode (.crcUpdate 0xAB)).cw = 0x02000000000000AB := by decide

/-! ## The interface: a table word is decoded, fetched and run -/

theorem test_decodeTableWord_crcUpdate : decodeTableWord 64 0x02000000000000AB = some (.crcUpdate 0xAB) := by decide
theorem test_decodeTableWord_explicit :
    decodeTableWord 160 0x0003FFFF8000FFFFFFFF10210003000000000000 = some (.crcCreate (.explicit x25)) := by decide
theorem test_withFetchWord_runs_first :
    regOf (step (State.reset.withFetchWord 64 0x02000000000000AB)) = some 0x0481 := by decide +kernel
theorem test_withFetchWord_illegal :
    givenOf (step (State.reset.withFetchWord 64 0x2000000000000000)) = some [errorResponse .illegalCommand] := by
  decide +kernel

/-! ## The CRC steps (V1 to V9) -/

theorem test_rev : rev8 0x12 = 0x48 ∧ rev8 0x31 = 0x8C ∧ rev16 0x1234 = 0x2C48 ∧ rev16 0x8005 = 0xA001 := by decide
theorem test_crcBit_xmodem :
    crcBit xmodemParams 0x8000 false = 0x1021 ∧ crcBit xmodemParams 0x8000 true = 0x0000 ∧
    crcBit xmodemParams 0x7FFF true = 0xEFDF := by decide
theorem test_crcBit_two_bit_mask :
    crcBit { xmodemParams with msbMask := 0xC000 } 0x4000 true = 0x9021 ∧
    crcBit { xmodemParams with msbMask := 0xC000 } 0xC000 true = 0x8000 := by decide
theorem test_crcByte : crcByte modbusParams 0xFFFF 0x01 = 0x7E01 ∧ crcByte mcrf4xxParams 0xFFFF 0x02 = 0xA934 := by
  decide
theorem test_crcOut :
    crcOut { x25 with finalXor := 0x00FF, outputMask := 0x0FFF } 0x89F6 = 0x0F6E ∧
    crcOut { x25 with finalXor := 0x00FF, outputMask := 0x0FFF, reflectOutput := false } 0x89F6 = 0x89F6 := by decide

/-! ## One command at a time, at most two each -/

/-- V11. -/
theorem test_crcCreate_midMessage : regOf (exec (.crcCreate .modbus) (crcState xmodemParams 0x0481)) = some 0xFFFF := by
  decide
/-- V12. -/
theorem test_crcReset : regOf (exec .crcReset (crcState mcrf4xxParams 0x1358)) = some 0xFFFF := by decide
/-- V8: a zero byte is not a no-op. -/
theorem test_crcUpdate_zero : regOf (exec (.crcUpdate 0x00) (crcState xmodemParams 0xFFFF)) = some 0xE1F0 := by decide
/-- V49: an update after the destructive `CRC.GETRESULT`. -/
theorem test_crcUpdate_after_result : regOf (exec (.crcUpdate 0x41) (crcState modbusParams 0x4B37)) = some 0x35B6 := by
  decide
/-- V46. -/
theorem test_crcGetResult_writes_back :
    regOf (exec .crcGetResult (crcState modbusParams 0xECD2)) = some 0x4B37 ∧
    respOf (exec .crcGetResult (crcState modbusParams 0xECD2)) = some (okResponse 0x4B37 []) := by decide
/-- V48. -/
theorem test_crcGetResult_raw :
    respOf (exec .crcGetResult (crcState xmodemParams 0x21A4)) = some (okResponse 0x21A4 []) := by decide
/-- V40, X-25. -/
theorem test_crcCompute_x25 :
    respOf (exec (.crcCompute (.explicit x25) 0 9 s9) State.reset) = some (okResponse 0x906E []) := by decide +kernel
/-- V36: the last byte alone, and one past it. -/
theorem test_crcCompute_range :
    respOf (exec (.crcCompute .xmodem 4 1 [1, 2, 3, 4, 5]) State.reset) = some (okResponse 0x50A5 []) ∧
    respOf (exec (.crcCompute .xmodem 5 1 [1, 2, 3, 4, 5]) State.reset) = some (errorResponse .preconditionViolation) :=
  by decide +kernel
/-- V73. -/
theorem test_bufCreate_again : dataOf (exec (.bufCreate 2) live) = some [] := by decide
/-- V72. -/
theorem test_bufCreate_fails :
    respOf (exec (.bufCreate 0) live) = some (errorResponse .invalidArgument) ∧
    dataOf (exec (.bufCreate 0) live) = some [0x11, 0x22, 0x33] := by decide
/-- V74: exactly full, only the first `count` elements taken. -/
theorem test_bufAdd_fills : dataOf (exec (.bufAdd 1 [0x44, 0x55]) live) = some [0x11, 0x22, 0x33, 0x44] := by decide
/-- V74, V75: no partial write; too short comes before overflow. -/
theorem test_bufAdd_rejects :
    dataOf (exec (.bufAdd 2 [0x44, 0x55]) live) = some [0x11, 0x22, 0x33] ∧
    stopOf (exec (.bufAdd 5 [0x44]) live) = some .addItemsTooShort := by decide
/-- V76. -/
theorem test_bufCount : respOf (exec .bufCount live) = some (okResponse 3 []) := by decide
/-- V77. -/
theorem test_bufHasData_empty : respOf (exec .bufHasData (bufState 4 [])) = some (okResponse 0 []) := by decide
/-- V78. -/
theorem test_bufHasDataN :
    respOf (exec (.bufHasDataN 3) live) = some (okResponse 1 []) ∧
    respOf (exec (.bufHasDataN 4) live) = some (okResponse 0 []) ∧
    respOf (exec (.bufHasDataN (-8388608)) live) = some (okResponse 1 []) := by decide
/-- V79. -/
theorem test_bufPeek :
    respOf (exec (.bufPeek 2) live) = some (okResponse 0x33 []) ∧
    respOf (exec (.bufPeek 3) live) = some (errorResponse .indexOutOfRange) := by decide
/-- V80. -/
theorem test_bufGetData :
    respOf (exec (.bufGetData 2) live) = some (okResponse 0 [0x11, 0x22]) ∧
    dataOf (exec (.bufGetData 2) live) = some [0x33] := by decide
/-- V80. -/
theorem test_bufGetData_zero : respOf (exec (.bufGetData 0) live) = some (errorResponse .invalidArgument) := by decide
/-- V81. -/
theorem test_bufRemove : dataOf (exec (.bufRemove 1) live) = some [0x22, 0x33] := by decide
/-- V81. -/
theorem test_bufRemove_undefined : stopOf (exec (.bufRemove 4) live) = some .removeAmountUnspecified := by decide
/-- V82. -/
theorem test_bufClear : dataOf (exec .bufClear live) = some [] := by decide
/-- V86: decode before `NotConstructed` before the command's own check. -/
theorem test_priority :
    givenOf (step (State.reset.withFetchWord 64 0x1500000001000000)) = some [errorResponse .illegalCommand] ∧
    givenOf (step (State.reset.withFetchWord 64 0x1500000000FFFFFF)) = some [errorResponse .notConstructed] ∧
    givenOf (step (live.withFetchWord 64 0x1500000000FFFFFF)) = some [errorResponse .indexOutOfRange] := by
  decide +kernel

/-! ## Assembler text (R66) -/

theorem test_show :
    showInstr (.crcCreate (.explicit x25)) = "CRC.CREATE EXPLICIT, 4129, 65535, 65535, 32768, 65535, 1, 1" ∧
    showInstr (.bufCreate (-1)) = "BUF.CREATE -1" ∧
    showInstr (.crcCompute .modbus 1 3 [1, 2, 3]) = "CRC.COMPUTE MODBUS, 1, 3, [1, 2, 3]" := by decide +kernel
/-- R64. -/
theorem test_pseudo :
    (Pseudo.bufAddAll [7, 8]).expand = [.bufAdd 2 [7, 8]] ∧
    (Pseudo.crcUpdates [1, 2]).expand = [.crcUpdate 1, .crcUpdate 2] := by decide

/-! ## Witnesses: a concrete state and operands for the hypotheses of each statement, clause by clause -/

theorem witness_HardwareResetResetsBothUnitsOnly :
    ((asked live [none] [.hardReset]).inputs = .hardReset :: [] ∧
      ∀ r, outstandingOf (asked live [none] [.hardReset]).reqs r = none) ∧
    ((asked live [some (encode .bufCount)] [.hardReset]).inputs = .hardReset :: [] ∧
      outstandingOf (asked live [some (encode .bufCount)] [.hardReset]).reqs 0 = some (encode .bufCount)) := by
  refine ⟨⟨rfl, ?_⟩, rfl, rfl⟩
  intro r
  cases r <;> rfl

/-- Each of the four selectors is one of the cases of `CrcCreateStoresRecordAndLoadsSeed`, and no two cases meet. -/
theorem witness_CrcCreateStoresRecordAndLoadsSeed : List.Pairwise (fun a b : ParamSel => a ≠ b) [.xmodem, .mcrf4xx, .modbus, .explicit x25] := by
  decide

theorem witness_CrcGetResultWritesBackTheTransform :
    (crcState modbusParams 0xECD2).crc.params.reflectOutput = true ∧
    State.reset.crc.params.reflectOutput = false := by decide

/-- V36: the zero length with `start` below 0; `start` below 0, `length` below 0 and a range one past the end; a range
that ends exactly at the end. -/
theorem witness_CrcComputeAnswersItsRangeAndWritesNothing :
    ((0 : Int) = 0 ∧ (-1 : Int) < 0) ∧
    ((2 : Int) ≠ 0 ∧ ((-1 : Int) < 0 ∨ (2 : Int) < 0 ∨ (-1 : Int) + 2 > ([1, 2, 3, 4, 5] : List Byte).length)) ∧
    ((-1 : Int) ≠ 0 ∧ ((0 : Int) < 0 ∨ (-1 : Int) < 0 ∨ (0 : Int) + -1 > ([1, 2, 3, 4, 5] : List Byte).length)) ∧
    ((3 : Int) ≠ 0 ∧ ((3 : Int) < 0 ∨ (3 : Int) < 0 ∨ (3 : Int) + 3 > ([1, 2, 3, 4, 5] : List Byte).length)) ∧
    ((3 : Int) ≠ 0 ∧ (0 : Int) ≤ 2 ∧ (0 : Int) ≤ 3 ∧ (2 : Int) + 3 ≤ ([1, 2, 3, 4, 5] : List Byte).length) := by decide

theorem witness_ReversalMirrorsBitPositions : (7 < 8) ∧ (15 < 16) ∧ (0 < 1) := by decide

/-- The highest bit position shifted; a feedback mask that selects a differing bit and one that selects none. -/
theorem witness_BitStepFeedsBackUnderTheMask :
    (14 < 15) ∧ xmodemParams.msbMask = 0x8000#16 ∧
    ((if false then ~~~(0x8000#16) else 0x8000#16) &&& xmodemParams.msbMask) ≠ 0#16 ∧
    ((if true then ~~~(0x8000#16) else 0x8000#16) &&& xmodemParams.msbMask) = 0#16 := by decide

theorem witness_OutputTransformOnlyWhenReflecting : modbusParams.reflectOutput = true ∧ xmodemParams.reflectOutput = false := by decide

/-- A message, the empty message, a preset, and an engine that already holds the record. -/
theorem witness_StreamingEqualsBatch :
    s9 ≠ [] ∧ (ParamSel.modbus = .xmodem ∨ ParamSel.modbus = .mcrf4xx ∨ ParamSel.modbus = .modbus) ∧
    (crcState x25 0x89F6).crc.params = selParams (.explicit x25) := by
  decide

/-- X-25 after `s9`: reflected output, full mask, and a palindromic `finalXor` (V46). -/
theorem witness_RepeatedGetResultTransformsItsLastAnswer :
    (crcState x25 0x89F6).crc.params.reflectOutput = true ∧ (crcState x25 0x89F6).crc.params.outputMask = 0xFFFF#16 ∧
    rev16 (crcState x25 0x89F6).crc.params.finalXor = (crcState x25 0x89F6).crc.params.finalXor := by decide

theorem witness_ZeroMsbMaskOnlyShifts : ({ xmodemParams with msbMask := 0 } : CrcParams).msbMask = 0#16 := by decide

/-- The capacities 1 and `NMAX`, 0, and `NMAX` + 1. -/
theorem witness_BufCreateConstructsOrRejects :
    ((1 : Int) ≤ 1 ∧ (1 : Int) ≤ State.reset.cfg.nmax) ∧
    ((1 : Int) ≤ 8388607 ∧ (8388607 : Int) ≤ State.reset.cfg.nmax) ∧ ((0 : Int) < 1) ∧
    (((State.resetWith { Config.standard with nmax := 4 }).cfg.nmax : Int) < 5 ∧ (1 : Int) ≤ 5) := by decide

/-- Adding nothing, filling exactly, and one too many (V74). -/
theorem witness_BufAddAppendsOrRejectsWhole :
    live.buf.valid = true ∧
    ((0 : Int) ≤ 0 ∧ (0 : Int) ≤ ([] : List Elem).length ∧ (live.buf.count : Int) + 0 ≤ live.buf.cap) ∧
    ((0 : Int) ≤ 1 ∧ (1 : Int) ≤ ([0x44] : List Elem).length ∧ (live.buf.count : Int) + 1 ≤ live.buf.cap) ∧
    ((0 : Int) ≤ 2 ∧ (2 : Int) ≤ ([0x44, 0x55] : List Elem).length ∧ (live.buf.cap : Int) < live.buf.count + 2) := by
  decide

theorem witness_BufQuestionsAnswerAndChangeNothing : live.buf.valid = true := by decide

theorem witness_BufClearResetsTheCountOnly : live.buf.valid = true := by decide

/-- The oldest, the newest, one past it, and -1 (V79). -/
theorem witness_BufPeekReadsOneElement :
    live.buf.valid = true ∧ ((0 : Int) ≤ 0 ∧ (0 : Int) < live.buf.count) ∧ ((0 : Int) ≤ 2 ∧ (2 : Int) < live.buf.count) ∧
    ((3 : Int) < 0 ∨ (live.buf.count : Int) ≤ 3) ∧ ((-1 : Int) < 0 ∨ (live.buf.count : Int) ≤ -1) := by decide

/-- One, all, none, one too many (V80). -/
theorem witness_BufGetDataCopiesOutThenRemoves :
    live.buf.valid = true ∧ ((0 : Int) < 1 ∧ (1 : Int) ≤ live.buf.count) ∧ ((0 : Int) < 3 ∧ (3 : Int) ≤ live.buf.count) ∧
    ((0 : Int) ≤ 0 ∨ (live.buf.count : Int) < 0) ∧ ((4 : Int) ≤ 0 ∨ (live.buf.count : Int) < 4) := by decide

/-- None, all, one too many, -1 (V81). -/
theorem witness_BufRemoveDiscardsAndCompacts :
    live.buf.valid = true ∧ ((0 : Int) ≤ 0 ∧ (0 : Int) ≤ live.buf.count) ∧ ((0 : Int) ≤ 3 ∧ (3 : Int) ≤ live.buf.count) ∧
    ((4 : Int) < 0 ∨ (live.buf.count : Int) < 4) ∧ ((-1 : Int) < 0 ∨ (live.buf.count : Int) < -1) := by decide

theorem witness_BufCommandsNeedABuffer :
    (Instr.bufPeek (-1)).isBuf = true ∧ (∀ n, Instr.bufPeek (-1) ≠ .bufCreate n) ∧ State.reset.buf.valid = false :=
  ⟨rfl, fun _ => by simp, rfl⟩

/-- V75. -/
theorem witness_BufAddWithoutItsItemsStops : live.buf.valid = true ∧ (-1 : Int) < 0 ∧ (([0x44] : List Elem).length : Int) < 2 := by
  decide

theorem witness_BufUnitIsABoundedQueue : (Instr.bufGetData 2).isBuf = true := by decide

/-- V79. -/
theorem witness_PeekAgreesWithGetData : ∃ t, exec (.bufPeek 1) live = .next t ∧ t.resp = some (okResponse 0x22 []) := ⟨_, rfl, rfl⟩

/-- E12 with `C` = 1 and `C` = `NMAX` = 4. -/
theorem witness_FilledBufferDrainsInOrder :
    (1 ≤ ([1] : List Elem).length ∧ ([1] : List Elem).length ≤ State.reset.cfg.nmax) ∧
    (1 ≤ ([1, 2, 3, 4] : List Elem).length ∧
      ([1, 2, 3, 4] : List Elem).length ≤ (State.resetWith { Config.standard with nmax := 4 }).cfg.nmax) ∧
    1 ≤ State.reset.cfg.nmax := by decide

/-- V80. -/
theorem witness_SuccessiveGetDataNeverRepeats :
    ∃ t u, exec (.bufGetData 2) live = .next t ∧ t.resp = some (okResponse 0 [0x11, 0x22]) ∧
      exec (.bufGetData 1) t = .next u ∧ u.resp = some (okResponse 0 [0x33]) := ⟨_, _, rfl, rfl, rfl, rfl⟩

/-- V84's middle: take one, add two, take what is too much. -/
theorem witness_CountIsAddedMinusRemoved :
    (∀ i ∈ [Instr.bufGetData 1, .bufAdd 2 [4, 5], .bufGetData 9], (∀ n, i = .bufCreate n → n < 1) ∧ i ≠ .bufClear) ∧
    ∃ u, execTrace [.bufGetData 1, .bufAdd 2 [4, 5], .bufGetData 9] live =
      some (u, [okResponse 0 [0x11], okResponse 0 [], errorResponse .invalidArgument]) := by
  refine ⟨?_, _, rfl⟩
  intro i hi
  simp only [List.mem_cons, List.not_mem_nil, or_false] at hi
  rcases hi with rfl | rfl | rfl <;> exact ⟨by simp, by simp⟩

theorem witness_ErrorsChangeNothing :
    ∃ t, exec (.bufPeek 3) live = .next t ∧ t.resp = some (errorResponse .indexOutOfRange) ∧
      (errorResponse .indexOutOfRange).status ≠ .ok := ⟨_, rfl, rfl, by decide⟩

theorem witness_FailedCommandLeavesNoTrace :
    ∃ t, exec (.bufPeek 3) live = .next t ∧ t.resp = some (errorResponse .indexOutOfRange) ∧
      (errorResponse .indexOutOfRange).status ≠ .ok := ⟨_, rfl, rfl, by decide⟩

/-- A granted `BUF.PEEK 3` on the live buffer. -/
theorem witness_ErrorsChangeNothing_granted :
    grantsNow 0 (asked live [some (encode (.bufPeek 3))] [.grant 0]) ∧
    outstandingOf (asked live [some (encode (.bufPeek 3))] [.grant 0]).reqs 0 = some (encode (.bufPeek 3)) ∧
    ∃ t, step (asked live [some (encode (.bufPeek 3))] [.grant 0]) = .next t ∧
      receivedBy t 0 = receivedBy (asked live [some (encode (.bufPeek 3))] [.grant 0]) 0 ++
        [errorResponse .indexOutOfRange] :=
  ⟨.inl rfl, rfl, _, rfl, rfl⟩

theorem witness_ErrorTableIsComplete :
    (∃ t, exec (.bufPeek 3) live = .next t ∧ t.resp = some ⟨.error .indexOutOfRange, 0, []⟩) ∧
    canRaise .crcCompute .preconditionViolation = true := ⟨⟨_, rfl, rfl⟩, by decide⟩

theorem witness_UnitsShareNoState :
    (Instr.bufAdd 1 [0x44]).isBuf = true ∧ (∃ t, exec (.bufAdd 1 [0x44]) live = .next t) ∧
    (Instr.bufRemove 4).isBuf = true ∧ exec (.bufRemove 4) live = .refused .removeAmountUnspecified ∧
    (Instr.crcUpdate 0x41).isBuf = false := ⟨rfl, ⟨_, rfl⟩, rfl, rfl, rfl⟩

/-- Two states with one CRC unit and different buffers. -/
theorem witness_CrcCommandsDependOnTheCrcUnitAlone : Instr.crcGetResult.isBuf = false ∧ live.crc = State.reset.crc ∧ live ≠ State.reset :=
  by decide

/-- A granted `CRC.CREATE MODBUS` (the clause on a granted create too), and a hardware reset of a Modbus engine, each changes the record. -/
theorem witness_ParamsChangeOnlyByCreateOrHardwareReset :
    (∃ t, step (asked live [some (encode (.crcCreate .modbus))] [.grant 0]) = .next t ∧
      t.crc.params ≠ (asked live [some (encode (.crcCreate .modbus))] [.grant 0]).crc.params ∧
      grantsNow 0 (asked live [some (encode (.crcCreate .modbus))] [.grant 0]) ∧
      outstandingOf (asked live [some (encode (.crcCreate .modbus))] [.grant 0]).reqs 0 =
        some (encode (.crcCreate .modbus)) ∧
      decode (encode (.crcCreate .modbus)) = .ok (.crcCreate .modbus)) ∧
    ∃ t, step (asked (crcState modbusParams 0) [none] [.hardReset]) = .next t ∧
      t.crc.params ≠ (asked (crcState modbusParams 0) [none] [.hardReset]).crc.params :=
  ⟨⟨_, rfl, by decide, .inl rfl, rfl, rfl⟩, _, rfl, by decide⟩

/-- A granted `BUF.CREATE 2` on the live buffer of capacity 4. -/
theorem witness_BufferAndCapacityPersist :
    (asked live [some (encode (.bufCreate 2))] [.grant 0]).inputs.head? ≠ some .hardReset ∧
    (asked live [some (encode (.bufCreate 2))] [.grant 0]).buf.valid = true ∧
    ∃ t, step (asked live [some (encode (.bufCreate 2))] [.grant 0]) = .next t ∧ t.buf.cap ≠ 4 :=
  ⟨by decide, rfl, _, rfl, by decide⟩

theorem witness_InvariantHoldsAtReset : Config.standard.wf = true := by decide

/-- A state in the invariant that has a step: the live buffer with `BUF.COUNT` outstanding and its grant pending. -/
theorem witness_StepKeepsTheInvariant :
    Inv (asked live [some (encode .bufCount)] [.grant 0]) ∧
    ∃ t, step (asked live [some (encode .bufCount)] [.grant 0]) = .next t := by
  refine ⟨⟨rfl, ⟨rfl, by decide, fun _ => by decide, fun _ => by decide, fun _ => by decide⟩, rfl, rfl, ?_, ?_⟩, _, rfl⟩
  · intro q hq
    obtain rfl : q = { outstanding := some (encode .bufCount), received := [] } := List.mem_singleton.1 hq
    refine ⟨?_, by simp⟩
    rintro x hx
    obtain rfl : encode .bufCount = x := by simpa using hx
    decide
  · intro e he
    obtain rfl : e = .grant 0 := List.mem_singleton.1 he
    trivial

theorem witness_RowsAreDisjoint : ∃ r ∈ rows, r.selects 0x1200000000000000 = true :=
  ⟨⟨.bufCount, 0xFFFFFFFFFFFFFFFF, 0x1200000000000000⟩, by decide, by decide⟩

/-- Both ends of the operand range. -/
theorem witness_DecodeOfEncodeIsTheCommand :
    Instr.wf Config.standard (.crcCompute (.explicit x25) (-8388608) 8388607 s9) = true ∧
    Instr.wf Config.standard (.bufAdd 8388607 [0, 255]) = true := by decide

theorem witness_EncodeOfDecodeIsTheWord :
    Request.wf Config.standard ⟨0x0003000000000000, 0x0003FFFF8000FFFFFFFF1021, [], []⟩ = true ∧
    decode ⟨0x0003000000000000, 0x0003FFFF8000FFFFFFFF1021, [], []⟩ = .ok (.crcCreate (.explicit x25)) := by decide

/-- The bytes of `CRC.UPDATES`, of `CRC.COMPUTEALL`, and a sequence that fits and one that does not. -/
theorem witness_PseudoCommandsDoWhatTheyName :
    (([] : List Byte) = [] ∧ s9 ≠ []) ∧ live.buf.valid = true ∧
    live.buf.count + ([0x44] : List Elem).length ≤ live.buf.cap ∧
    live.buf.cap < live.buf.count + ([0x44, 0x55] : List Elem).length := by decide

/-- A grant from the inputs, for a streaming command with no other outstanding, and a grant nobody named. -/
theorem witness_StepRunsTheGrantedCommand :
    ((asked live [some (encode .crcReset), none] [.grant 0]).inputs = [.grant 0] ∧
      outstandingOf (asked live [some (encode .crcReset), none] [.grant 0]).reqs 0 = some (encode .crcReset) ∧
      decode (encode .crcReset) = .ok .crcReset ∧
      (Instr.crcReset.streaming = true →
        streamingElsewhere (asked live [some (encode .crcReset), none] [.grant 0]).reqs 0 = false)) ∧
    ((asked live [none, some (encode .bufCount)] []).inputs = [] ∧
      freeChoice (waiting (asked live [none, some (encode .bufCount)] []).reqs) 0 = some 1 ∧
      outstandingOf (asked live [none, some (encode .bufCount)] []).reqs 1 = some (encode .bufCount) ∧
      decode (encode .bufCount) = .ok .bufCount ∧ Instr.bufCount.streaming = false) := by
  exact ⟨⟨rfl, rfl, rfl, fun _ => rfl⟩, rfl, rfl, rfl, rfl, rfl⟩

/-- A grant from the inputs, and one that no input names. -/
theorem witness_IllegalCommandIsAnsweredAndChangesNothing :
    grantsNow 0 (asked live [some ⟨0x2000000000000000, 0, [], []⟩] [.grant 0]) ∧
    grantsNow 0 (asked live [some ⟨0x2000000000000000, 0, [], []⟩] []) ∧
    outstandingOf (asked live [some ⟨0x2000000000000000, 0, [], []⟩] []).reqs 0 =
      some ⟨0x2000000000000000, 0, [], []⟩ ∧
    decode ⟨0x2000000000000000, 0, [], []⟩ = .error .noRow := by exact ⟨.inl rfl, .inr ⟨rfl, rfl⟩, rfl, by decide⟩

theorem witness_OverlappingStreamingStops :
    grantsNow 0 (asked live [some (encode .crcReset), some (encode .crcGetResult)] [.grant 0]) ∧ (0 : Nat) ≠ 1 ∧
    outstandingOf (asked live [some (encode .crcReset), some (encode .crcGetResult)] [.grant 0]).reqs 0 =
      some (encode .crcReset) ∧
    outstandingOf (asked live [some (encode .crcReset), some (encode .crcGetResult)] [.grant 0]).reqs 1 =
      some (encode .crcGetResult) ∧
    decode (encode .crcReset) = .ok .crcReset ∧ decode (encode .crcGetResult) = .ok .crcGetResult ∧
    Instr.crcReset.streaming = true ∧ Instr.crcGetResult.streaming = true := by
  exact ⟨.inl rfl, by decide, rfl, rfl, rfl, rfl, rfl, rfl⟩

/-- An idle requester presents; a busy one presents; one that is not served, numbered `NREQ`, presents. -/
theorem witness_PresentingMakesACommandOutstanding :
    ((asked live [none] [.present 0 (encode .bufCount)]).inputs = [.present 0 (encode .bufCount)] ∧
      0 < (asked live [none] [.present 0 (encode .bufCount)]).reqs.length ∧
      outstandingOf (asked live [none] [.present 0 (encode .bufCount)]).reqs 0 = none) ∧
    outstandingOf (asked live [some (encode .bufClear)] [.present 0 (encode .bufCount)]).reqs 0 =
      some (encode .bufClear) ∧
    (asked live [none] [.present 1 (encode .bufCount)]).reqs.length ≤ 1 := by
  exact ⟨⟨rfl, by decide, rfl⟩, rfl, by decide⟩

/-- One waiting requester, granted with no input pending. -/
theorem witness_EveryGrantGivesExactlyOneResponse :
    grantsNow 0 (asked live [some (encode .bufCount)] []) ∧
    outstandingOf (asked live [some (encode .bufCount)] []).reqs 0 = some (encode .bufCount) ∧
    ∃ t, step (asked live [some (encode .bufCount)] []) = .next t := by
  exact ⟨.inr ⟨rfl, rfl⟩, rfl, _, rfl⟩

/-- V92: `CRC.COMPUTE` of requester 1 while requester 0 has a streaming command outstanding. -/
theorem witness_ComputeDisturbsNothing :
    grantsNow 1 (asked live [some (encode (.crcUpdate 0x31)), some (encode (.crcCompute .xmodem 0 1 [0xAB]))] [.grant 1]) ∧
    outstandingOf
      (asked live [some (encode (.crcUpdate 0x31)), some (encode (.crcCompute .xmodem 0 1 [0xAB]))] [.grant 1]).reqs 1 =
      some (encode (.crcCompute .xmodem 0 1 [0xAB])) ∧
    decode (encode (.crcCompute .xmodem 0 1 [0xAB])) = .ok (.crcCompute .xmodem 0 1 [0xAB]) := by
  exact ⟨.inl rfl, rfl, rfl⟩

theorem witness_IdleBlockHoldsItsState : State.reset.inputs = [] ∧ ∀ r, outstandingOf State.reset.reqs r = none := by
  refine ⟨rfl, fun r => ?_⟩
  cases r <;> rfl

/-- A run of one requester whose command is answered by the first step, after which the block is idle for ever.  Nobody
competes and every grant that is owed is made, whatever the command. -/
theorem answeredOnce_run {s t : State} (ht : step s = .next t) (hidle : step t = .next t)
    (hnone : ∀ r, outstandingOf t.reqs r = none) :
    Run (fun k => if k = 0 then s else t) (fun _ => []) ∧ GrantsDue (fun k => if k = 0 then s else t) (fun _ => []) ∧
    ∀ r, ¬ CompetesForEver (fun k => if k = 0 then s else t) r := by
  refine ⟨?_, ?_, ?_⟩
  · intro k
    cases k with
    | zero => simpa using ht
    | succ k => simpa using hidle
  · intro r k q hw
    have := hw (k + 1) (by omega)
    simp [hnone] at this
  · intro r hc
    obtain ⟨j, r', q, hj, -, ho, -⟩ := hc 1
    simp [show j ≠ 0 by omega, hnone] at ho

/-- The three ways a grant is owed: `BUF.COUNT` under `FAIR` = true, `BUF.COUNT` without it where nobody competes, and a
command that needs no lock. -/
theorem witness_DueGrantsAnswerEveryCommand :
    (∃ (tr : Nat → State) (new : Nat → List Input), Run tr new ∧ GrantsDue tr new ∧
      outstandingOf (tr 0).reqs 0 = some (encode .bufCount) ∧ (tr 0).cfg.fair = true) ∧
    (∃ (tr : Nat → State) (new : Nat → List Input), Run tr new ∧ GrantsDue tr new ∧
      outstandingOf (tr 0).reqs 0 = some (encode .bufCount) ∧ needsLock (encode .bufCount) = true ∧
      (tr 0).cfg.fair = false ∧ ¬ CompetesForEver tr 0) ∧
    ∃ (tr : Nat → State) (new : Nat → List Input), Run tr new ∧ GrantsDue tr new ∧
      outstandingOf (tr 0).reqs 0 = some (encode .crcReset) ∧ needsLock (encode .crcReset) = false := by
  have none1 : ∀ (as : List Response) (r : Nat), outstandingOf [{ outstanding := none, received := as }] r = none := by
    intro as r
    cases r <;> rfl
  refine ⟨?_, ?_, ?_⟩
  · obtain ⟨h1, h2, -⟩ := answeredOnce_run (s := { asked live [some (encode .bufCount)] [] with
      cfg := { Config.standard with fair := true } }) rfl rfl (none1 _)
    exact ⟨_, _, h1, h2, rfl, rfl⟩
  · obtain ⟨h1, h2, h3⟩ := answeredOnce_run (s := asked live [some (encode .bufCount)] []) rfl rfl (none1 _)
    exact ⟨_, _, h1, h2, rfl, rfl, rfl, h3 0⟩
  · obtain ⟨h1, h2, -⟩ := answeredOnce_run (s := asked live [some (encode .crcReset)] []) rfl rfl (none1 _)
    exact ⟨_, _, h1, h2, rfl, rfl⟩

end Sys2Proof.Tests
end

section

namespace Sys2Proof.Proofs

open Sys2Proof Sys2Proof.Machine

/-- Settles O35: replacing the other unit commutes with a command (`exec_setCrc`, `exec_setBuf`), and a command keeps the
other unit (`exec_buf_crc`, `exec_crc_next`). -/
theorem unitsShareNoState : Obligations.UnitsShareNoState := by
  refine ⟨fun i s c hb => ⟨fun t ht => ⟨?_, exec_buf_crc hb ht⟩, fun w hw => ?_⟩, fun i s b hb => ?_⟩
  · rw [exec_setCrc hb, ht, onNext]
  · rw [exec_setCrc hb, hw, onNext]
  · obtain ⟨t, ht, hbuf⟩ := exec_crc_next hb s
    exact ⟨t, ht, by rw [exec_setBuf hb, ht, onNext], hbuf⟩

end Sys2Proof.Proofs
end

section
/-! Everything a command and a step can do to the two units, said once; the BUF unit as the bounded queue (`cap`, `q`);
and the invariant through every step (10_state.md). -/

namespace Sys2Proof.Proofs

open Sys2Proof Sys2Proof.Machine

/-! ## What a command that succeeds does -/

/-- The command succeeds in `s`, under the conditions of its own section of the spec: its value, its payload, and the
state it leaves but for the response. -/
inductive Succeeds (s : State) : Instr → Nat → List Elem → State → Prop
  | crcCreate (sel : ParamSel) :
      Succeeds s (.crcCreate sel) 0 [] (s.setCrc ⟨selParams sel, (selParams sel).initialValue⟩)
  | crcReset : Succeeds s .crcReset 0 [] (s.setReg s.crc.params.initialValue)
  | crcUpdate (c : Byte) : Succeeds s (.crcUpdate c) 0 [] (s.setReg (crcByte s.crc.params s.crc.reg c))
  | crcGetResult :
      Succeeds s .crcGetResult (crcOut s.crc.params s.crc.reg).toNat [] (s.setReg (crcOut s.crc.params s.crc.reg))
  | crcComputeNothing (sel : ParamSel) (start : Int) (data : List Byte) :
      Succeeds s (.crcCompute sel start 0 data) (selParams sel).initialValue.toNat [] s
  | crcCompute (sel : ParamSel) (start length : Int) (data : List Byte) (h : rangeInData start length data = true) :
      Succeeds s (.crcCompute sel start length data)
        (crcOut (selParams sel)
          (crcBytes (selParams sel) (selParams sel).initialValue (dataRange start length data))).toNat [] s
  | bufCreate (n : Int) (h1 : 1 ≤ n) (h2 : n ≤ s.cfg.nmax) :
      Succeeds s (.bufCreate n) 0 [] (s.setBuf { s.buf with valid := true, cap := n.toNat, count := 0 })
  | bufAdd (n : Int) (items : List Elem) (hv : s.buf.valid = true) (h0 : 0 ≤ n) (hlen : n ≤ items.length)
      (hfit : s.buf.count + n ≤ s.buf.cap) :
      Succeeds s (.bufAdd n items) 0 [] (s.setBuf (s.buf.append (firstItems n items)))
  | bufCount (hv : s.buf.valid = true) : Succeeds s .bufCount s.buf.count [] s
  | bufHasData (hv : s.buf.valid = true) : Succeeds s .bufHasData (boolValue (hasData s.buf)) [] s
  | bufHasDataN (n : Int) (hv : s.buf.valid = true) : Succeeds s (.bufHasDataN n) (boolValue (hasDataN s.buf n)) [] s
  | bufPeek (n : Int) (hv : s.buf.valid = true) (h : indexInRange s.buf n = true) :
      Succeeds s (.bufPeek n) (s.buf.slot s.cfg n.toNat) [] s
  | bufGetData (n : Int) (hv : s.buf.valid = true) (h : amountAvailable s.buf n = true) :
      Succeeds s (.bufGetData n) 0 (s.buf.slots s.cfg 0 n.toNat) (s.setBuf (s.buf.removeFront s.cfg n.toNat))
  | bufRemove (n : Int) (hv : s.buf.valid = true) (h : removeDefined s.buf n = true) :
      Succeeds s (.bufRemove n) 0 [] (s.setBuf (s.buf.removeFront s.cfg n.toNat))
  | bufClear (hv : s.buf.valid = true) : Succeeds s .bufClear 0 [] (s.setBuf { s.buf with count := 0 })

/-- A command that completes succeeds, or raises an error and writes the response only. -/
theorem exec_next_succeeds {i : Instr} {s t : State} (h : exec i s = .next t) :
    (∃ v out u, Succeeds s i v out u ∧ t = u.setResp (some (okResponse v out))) ∨
    ∃ e, t = s.setResp (some (errorResponse e)) := by
  have ok : ∀ {v out u}, Succeeds s i v out u → respond v out u = .next t →
      ∃ v out u, Succeeds s i v out u ∧ t = u.setResp (some (okResponse v out)) :=
    fun hs hr => ⟨_, _, _, hs, respond_eq_next.1 hr⟩
  have err : ∀ {e}, raise e s = .next t → ∃ e, t = s.setResp (some (errorResponse e)) :=
    fun hr => ⟨_, raise_eq_next.1 hr⟩
  cases i with
  | crcCreate sel => exact .inl (ok (.crcCreate sel) h)
  | crcReset => exact .inl (ok .crcReset h)
  | crcUpdate c => exact .inl (ok (.crcUpdate c) h)
  | crcGetResult => exact .inl (ok .crcGetResult h)
  | crcCompute sel start length data =>
    simp only [exec, execCrcCompute] at h
    split_ifs at h with h0 hr
    · subst h0
      exact .inl (ok (.crcComputeNothing sel start data) h)
    · exact .inl (ok (.crcCompute sel start length data hr) h)
    · exact .inr (err h)
  | bufCreate n =>
    simp only [exec, execBufCreate] at h
    split_ifs at h
    · exact .inr (err h)
    · exact .inl (ok (.bufCreate n (by omega) (by omega)) h)
  | bufAdd n items =>
    rcases withBuffer_eq_next.1 h with ⟨hv, h⟩ | ⟨-, h⟩
    · split_ifs at h with h0 hlen hfit
      · exact .inl (ok (.bufAdd n items hv (by omega) (by omega) (of_decide_eq_true hfit)) h)
      · exact .inr (err h)
    · exact .inr ⟨_, h⟩
  | bufCount =>
    rcases withBuffer_eq_next.1 h with ⟨hv, h⟩ | ⟨-, h⟩
    · exact .inl (ok (.bufCount hv) h)
    · exact .inr ⟨_, h⟩
  | bufHasData =>
    rcases withBuffer_eq_next.1 h with ⟨hv, h⟩ | ⟨-, h⟩
    · exact .inl (ok (.bufHasData hv) h)
    · exact .inr ⟨_, h⟩
  | bufHasDataN n =>
    rcases withBuffer_eq_next.1 h with ⟨hv, h⟩ | ⟨-, h⟩
    · exact .inl (ok (.bufHasDataN n hv) h)
    · exact .inr ⟨_, h⟩
  | bufPeek n =>
    rcases withBuffer_eq_next.1 h with ⟨hv, h⟩ | ⟨-, h⟩
    · split_ifs at h with hr
      · exact .inl (ok (.bufPeek n hv hr) h)
      · exact .inr (err h)
    · exact .inr ⟨_, h⟩
  | bufGetData n =>
    rcases withBuffer_eq_next.1 h with ⟨hv, h⟩ | ⟨-, h⟩
    · split_ifs at h with ha
      · exact .inl (ok (.bufGetData n hv ha) h)
      · exact .inr (err h)
    · exact .inr ⟨_, h⟩
  | bufRemove n =>
    rcases withBuffer_eq_next.1 h with ⟨hv, h⟩ | ⟨-, h⟩
    · split_ifs at h with hd
      exact .inl (ok (.bufRemove n hv hd) h)
    · exact .inr ⟨_, h⟩
  | bufClear =>
    rcases withBuffer_eq_next.1 h with ⟨hv, h⟩ | ⟨-, h⟩
    · exact .inl (ok (.bufClear hv) h)
    · exact .inr ⟨_, h⟩

/-- The only command that writes `CRC.P` is `CRC.CREATE` (10_state.md R17). -/
theorem exec_params_cases {i : Instr} {s t : State} (h : exec i s = .next t) :
    t.crc.params = s.crc.params ∨ ∃ sel, i = .crcCreate sel := by
  rcases exec_next_succeeds h with ⟨v, out, u, hs, rfl⟩ | ⟨e, rfl⟩
  · cases hs with
    | crcCreate sel => exact .inr ⟨sel, rfl⟩
    | _ => exact .inl rfl
  · exact .inl rfl

/-- A command clears no `BUF.valid`, and writes `BUF.cap` only as a `BUF.CREATE` that constructs a buffer
(10_state.md R18, R19). -/
theorem exec_valid_cap_cases {i : Instr} {s t : State} (h : exec i s = .next t) :
    (t.buf.valid = s.buf.valid ∧ t.buf.cap = s.buf.cap) ∨
    ∃ n, i = .bufCreate n ∧ 1 ≤ n ∧ n ≤ s.cfg.nmax ∧
      t.buf = { s.buf with valid := true, cap := n.toNat, count := 0 } := by
  rcases exec_next_succeeds h with ⟨v, out, u, hs, rfl⟩ | ⟨e, rfl⟩
  · cases hs with
    | bufCreate n h1 h2 => exact .inr ⟨n, rfl, h1, h2, rfl⟩
    | bufGetData | bufRemove => exact .inl (by simp)
    | _ => exact .inl ⟨rfl, rfl⟩
  · exact .inl ⟨rfl, rfl⟩

/-! ## The units through a step -/

/-- A step changes a unit only by hardware reset or by running a granted command. -/
theorem step_units_cases {s t : State} (h : step s = .next t) :
    (t.crc = s.crc ∧ t.buf = s.buf) ∨ s.inputs.head? = some .hardReset ∨
    ∃ r q i u, grantsNow r s ∧ outstandingOf s.reqs r = some q ∧ decode q = .ok i ∧
      exec i (beforeGrant s) = .next u ∧ t.crc = u.crc ∧ t.buf = u.buf := by
  rcases step_next_cases h with ⟨_, _, _, _, -, -, -, rfl⟩ | ⟨rest, hi, -, -⟩ | ⟨r, hg, hr⟩ | ⟨-, -, rfl⟩
  · exact .inl ⟨rfl, rfl⟩
  · exact .inr (.inl (by simp [hi]))
  · rcases grantRequester_next_cases hr with ⟨-, rfl⟩ | ⟨q, ho, ⟨_, -, rfl⟩ | ⟨i, u, hd, -, he, rfl⟩⟩
    · exact .inl (by simp)
    · exact .inl (by simp)
    · exact .inr (.inr ⟨r, q, i, u, hg, by simpa using ho, hd, he, rfl, rfl⟩)
  · exact .inl ⟨rfl, rfl⟩

/-- A step that grants a decodable command runs it and delivers its response. -/
theorem step_of_granted {r : Nat} {q : Request} {i : Instr} {s t : State} (h : step s = .next t) (hg : grantsNow r s)
    (ho : outstandingOf s.reqs r = some q) (hd : decode q = .ok i) :
    ∃ u, exec i (beforeGrant s) = .next u ∧ t = deliverTo r u := by
  rw [step_of_grantsNow hg] at h
  rcases grantRequester_next_cases h with ⟨hn, -⟩ | ⟨q', ho', ⟨_, hd', -⟩ | ⟨i', u, hd', -, he, ht⟩⟩
  · simp [ho] at hn
  · simp_all
  · obtain rfl : q = q' := by simpa [ho] using ho'
    obtain rfl : i = i' := by simpa [hd] using hd'
    exact ⟨u, he, ht⟩

/-- Settles O37: a step that changes `CRC.P` is a hardware reset or runs a granted command (`step_units_cases`), and the
only command that writes `CRC.P` is `CRC.CREATE` (`exec_params_cases`). -/
theorem paramsChangeOnlyByCreateOrHardwareReset : Obligations.ParamsChangeOnlyByCreateOrHardwareReset := by
  refine fun s t h => ⟨fun hne => ?_, fun r q sel hg ho hd => ?_⟩
  · rcases step_units_cases h with ⟨hc, -⟩ | hr | ⟨r, q, i, u, hg, ho, hd, he, hc, -⟩
    · exact absurd (congrArg CrcUnit.params hc) hne
    · exact .inl hr
    · rcases exec_params_cases he with hp | ⟨sel, rfl⟩
      · exact absurd (by rw [hc, hp, beforeGrant_crc]) hne
      · exact .inr ⟨r, q, sel, hg, ho, hd⟩
  · obtain ⟨u, he, rfl⟩ := step_of_granted h hg ho hd
    obtain rfl := respond_eq_next.1 he
    rfl

/-- Settles O38: without a hardware reset a step changes the BUF unit only by running a granted command
(`step_units_cases`), which keeps `BUF.valid` and `BUF.cap` or constructs a buffer (`exec_valid_cap_cases`). -/
theorem bufferAndCapacityPersist : Obligations.BufferAndCapacityPersist := by
  intro s t h hr
  rcases step_units_cases h with ⟨-, hb⟩ | hr' | ⟨r, q, i, u, hg, ho, hd, he, -, hb⟩
  · rw [hb]
    exact ⟨id, fun hne => absurd rfl hne⟩
  · exact absurd hr' hr
  · rcases exec_valid_cap_cases he with ⟨hv, hc⟩ | ⟨n, rfl, h1, h2, hu⟩
    · rw [hb, hv, hc, beforeGrant_buf]
      exact ⟨id, fun hne => absurd rfl hne⟩
    · rw [hb, hu]
      rw [beforeGrant_cfg] at h2
      exact ⟨fun _ => rfl, fun _ => ⟨r, q, n, hg, ho, hd, h1, h2, Int.toNat_of_nonneg (by omega), rfl, rfl⟩⟩

/-! ## The BUF unit is the bounded queue -/

theorem fifoOf_of_valid {s : State} (h : s.buf.valid = true) :
    fifoOf s = some { cap := s.buf.cap, q := s.buf.contents s.cfg } := if_pos h

theorem fifoOf_of_not_valid {s : State} (h : s.buf.valid = false) : fifoOf s = none := by simp [fifoOf, h]

/-- The answer `k` of the block in `s` follows the answer `o` of the queue: the same next queue and the same response with
everything outside the BUF unit kept, or a stop where the queue gives no meaning. -/
def Follows (s : State) (k : Result) (o : Option (Option Fifo × Response)) : Prop :=
  match o with
  | some (f, a) => ∃ t, k = .next t ∧ fifoOf t = f ∧ Answered s t a ∧ t.crc = s.crc
  | none => ∃ w, k = .refused w

/-- A successful command that leaves the BUF unit `b`. -/
theorem respond_setBuf_follows {s : State} {b : BufUnit} {f : Option Fifo} (hf : fifoOf (s.setBuf b) = f) (v : Nat)
    (out : List Elem) : Follows s (respond v out (s.setBuf b)) (some (f, okResponse v out)) :=
  ⟨_, rfl, hf, ⟨rfl, rfl, rfl, rfl, rfl⟩, rfl⟩

/-- A successful command that keeps the BUF unit. -/
theorem respond_follows (s : State) (v : Nat) (out : List Elem) :
    Follows s (respond v out s) (some (fifoOf s, okResponse v out)) := respond_setBuf_follows (b := s.buf) rfl v out

theorem raise_follows (s : State) (e : ErrorKind) : Follows s (raise e s) (some (fifoOf s, errorResponse e)) :=
  ⟨_, rfl, rfl, ⟨rfl, rfl, rfl, rfl, rfl⟩, rfl⟩

theorem refused_follows (s : State) (w : Refusal) : Follows s (.refused w) none := ⟨w, rfl⟩

/-- A command behind the `NotConstructed` check follows the queue when it does so in the states with a buffer. -/
theorem withBuffer_follows {s : State} {k : Result} {i : Instr}
    (hn : fifoStep s.cfg.nmax i none = some (none, errorResponse .notConstructed))
    (hk : s.buf.valid = true → Follows s k (fifoStep s.cfg.nmax i (fifoOf s))) :
    Follows s (withBuffer s k) (fifoStep s.cfg.nmax i (fifoOf s)) := by
  cases hv : s.buf.valid with
  | true => simpa [withBuffer, hv] using hk hv
  | false =>
    have hr := raise_follows s .notConstructed
    rw [fifoOf_of_not_valid hv] at hr ⊢
    simpa [withBuffer, hv, hn] using hr

theorem bufCreate_follows (n : Int) (s : State) :
    Follows s (exec (.bufCreate n) s) (fifoStep s.cfg.nmax (.bufCreate n) (fifoOf s)) := by
  simp only [exec, execBufCreate, fifoStep]
  by_cases h1 : n < 1
  · rw [if_pos h1, if_pos h1]
    exact raise_follows s _
  · rw [if_neg h1, if_neg h1]
    by_cases h2 : n ≤ s.cfg.nmax
    · rw [if_neg (by omega), if_pos h2]
      exact respond_setBuf_follows rfl 0 []
    · rw [if_pos (by omega), if_neg h2]
      exact refused_follows s _

/-- The queue after elements are appended. -/
theorem fifoOf_append {s : State} (hv : s.buf.valid = true) (es : List Elem) :
    fifoOf (s.setBuf (s.buf.append es)) = some { cap := s.buf.cap, q := s.buf.contents s.cfg ++ es } := by
  rw [fifoOf_of_valid (by simpa using hv)]
  simp [append_contents]

/-- The queue after the oldest `n` elements are removed. -/
theorem fifoOf_removeFront {s : State} (hv : s.buf.valid = true) (n : Nat) :
    fifoOf (s.setBuf (s.buf.removeFront s.cfg n)) = some { cap := s.buf.cap, q := (s.buf.contents s.cfg).drop n } := by
  rw [fifoOf_of_valid (by simpa using hv)]
  simp [removeFront_contents]

theorem bufAdd_follows (n : Int) (items : List Elem) (s : State) :
    Follows s (exec (.bufAdd n items) s) (fifoStep s.cfg.nmax (.bufAdd n items) (fifoOf s)) := by
  refine withBuffer_follows rfl fun hv => ?_
  have hq := fifoOf_of_valid hv
  simp only [hq, fifoStep, contents_length]
  by_cases h1 : 0 ≤ n ∧ n ≤ items.length
  · rw [if_neg (by omega), if_neg (by omega), if_pos h1]
    by_cases h2 : s.buf.count + n ≤ s.buf.cap
    · rw [if_pos (by simpa [addFits] using h2), if_pos h2]
      exact respond_setBuf_follows (fifoOf_append hv _) 0 []
    · rw [if_neg (by simpa [addFits] using h2), if_neg h2, ← hq]
      exact raise_follows s _
  · rw [if_neg h1]
    split_ifs with h2 h3
    · exact refused_follows s _
    · exact refused_follows s _
    · omega
    · omega

theorem bufCount_follows (s : State) : Follows s (exec .bufCount s) (fifoStep s.cfg.nmax .bufCount (fifoOf s)) := by
  refine withBuffer_follows rfl fun hv => ?_
  have hr := respond_follows s s.buf.count []
  rw [fifoOf_of_valid hv] at hr ⊢
  simpa only [fifoStep, contents_length] using hr

theorem bufHasData_follows (s : State) :
    Follows s (exec .bufHasData s) (fifoStep s.cfg.nmax .bufHasData (fifoOf s)) := by
  refine withBuffer_follows rfl fun hv => ?_
  have hval : boolValue (hasData s.buf) = if s.buf.contents s.cfg = [] then 0 else 1 := by
    simp only [boolValue, hasData, decide_eq_true_eq, ← List.length_eq_zero_iff, contents_length]
    split_ifs <;> omega
  have hr := respond_follows s (boolValue (hasData s.buf)) []
  rw [fifoOf_of_valid hv] at hr ⊢
  rwa [hval] at hr ⊢

theorem bufHasDataN_follows (n : Int) (s : State) :
    Follows s (exec (.bufHasDataN n) s) (fifoStep s.cfg.nmax (.bufHasDataN n) (fifoOf s)) := by
  refine withBuffer_follows rfl fun hv => ?_
  have hr := respond_follows s (boolValue (hasDataN s.buf n)) []
  rw [fifoOf_of_valid hv] at hr ⊢
  simpa only [fifoStep, contents_length, boolValue, hasDataN, decide_eq_true_eq] using hr

theorem bufPeek_follows (n : Int) (s : State) :
    Follows s (exec (.bufPeek n) s) (fifoStep s.cfg.nmax (.bufPeek n) (fifoOf s)) := by
  refine withBuffer_follows rfl fun hv => ?_
  have hq := fifoOf_of_valid hv
  simp only [indexInRange, Bool.and_eq_true, decide_eq_true_eq]
  by_cases h : 0 ≤ n ∧ n < s.buf.count
  · have hlt : n.toNat < (s.buf.contents s.cfg).length := by rw [contents_length]; omega
    rw [if_pos h, hq]
    simp only [fifoStep, if_pos h.1, List.getElem?_eq_getElem hlt, contents_getElem]
    rw [← hq]
    exact respond_follows s _ _
  · have hstep : fifoStep s.cfg.nmax (.bufPeek n) (fifoOf s) = some (fifoOf s, errorResponse .indexOutOfRange) := by
      rw [hq]
      by_cases h0 : 0 ≤ n
      · have hge : (s.buf.contents s.cfg).length ≤ n.toNat := by rw [contents_length]; omega
        simp only [fifoStep, if_pos h0, List.getElem?_eq_none hge]
      · simp only [fifoStep, if_neg h0]
    rw [if_neg h, hstep]
    exact raise_follows s _

theorem bufGetData_follows (n : Int) (s : State) :
    Follows s (exec (.bufGetData n) s) (fifoStep s.cfg.nmax (.bufGetData n) (fifoOf s)) := by
  refine withBuffer_follows rfl fun hv => ?_
  have hq := fifoOf_of_valid hv
  simp only [amountAvailable, Bool.and_eq_true, decide_eq_true_eq, hq, fifoStep, contents_length]
  by_cases h : 0 < n ∧ n ≤ s.buf.count
  · rw [if_pos h, if_pos h, ← slots_zero_eq_take _ _ _ (by omega)]
    exact respond_setBuf_follows (fifoOf_removeFront hv _) _ _
  · rw [if_neg h, if_neg h, ← hq]
    exact raise_follows s _

theorem bufRemove_follows (n : Int) (s : State) :
    Follows s (exec (.bufRemove n) s) (fifoStep s.cfg.nmax (.bufRemove n) (fifoOf s)) := by
  refine withBuffer_follows rfl fun hv => ?_
  simp only [removeDefined, Bool.and_eq_true, decide_eq_true_eq, fifoOf_of_valid hv, fifoStep, contents_length]
  by_cases h : 0 ≤ n ∧ n ≤ s.buf.count
  · rw [if_pos h, if_pos h]
    exact respond_setBuf_follows (fifoOf_removeFront hv _) _ _
  · rw [if_neg h, if_neg h]
    exact refused_follows s _

theorem bufClear_follows (s : State) : Follows s (exec .bufClear s) (fifoStep s.cfg.nmax .bufClear (fifoOf s)) := by
  refine withBuffer_follows rfl fun hv => ?_
  rw [fifoOf_of_valid hv]
  exact respond_setBuf_follows (fifoOf_of_valid (s := s.setBuf { s.buf with count := 0 }) hv) 0 []

/-- Settles O26: the queue simulates each of the nine commands; the store's layout enters through the valid data after an
append (`append_contents`) and after a removal (`removeFront_contents`) only. -/
theorem bufUnitIsABoundedQueue : Obligations.BufUnitIsABoundedQueue := by
  intro i s hb
  change Follows s (exec i s) (fifoStep s.cfg.nmax i (fifoOf s))
  cases i with
  | bufCreate n => exact bufCreate_follows n s
  | bufAdd n items => exact bufAdd_follows n items s
  | bufCount => exact bufCount_follows s
  | bufHasData => exact bufHasData_follows s
  | bufHasDataN n => exact bufHasDataN_follows n s
  | bufPeek n => exact bufPeek_follows n s
  | bufGetData n => exact bufGetData_follows n s
  | bufRemove n => exact bufRemove_follows n s
  | bufClear => exact bufClear_follows s
  | _ => cases hb

/-! ## The invariant -/

/-- What a legal request decodes to is a command the block can be given (30_encoding.md R51, R53). -/
theorem decode_wf {c : Config} {q : Request} {i : Instr} (hq : q.wf c = true) (h : decode q = .ok i) :
    i.wf c = true := by
  obtain ⟨m, -, hm⟩ := decode_ok_cases h
  have hb : operandFits (bSigned q.cw) = true := operandFits_toInt _
  have ha : operandFits (aSigned q.cw) = true := operandFits_toInt _
  cases m with
  | crcCreate | crcCompute =>
    simp only [buildInstr] at hm
    cases hs : decodeSel q.cw q.pw with
    | error e => simp [hs, Except.map] at hm
    | ok sel =>
      simp only [hs, Except.map, Except.ok.injEq] at hm
      subst hm
      simp [Instr.wf, ha, hb]
  | bufAdd =>
    cases hm
    exact Bool.and_eq_true_iff.2 ⟨hb, hq⟩
  | _ =>
    cases hm
    simp [Instr.wf, hb]

theorem count_zero_inv {c : Config} {b : BufUnit} (h : BufInv c b) : BufInv c { b with count := 0 } :=
  ⟨h.storeWf, h.storeFits, h.capLegal, fun _ => Nat.zero_le _, fun _ _ hi => absurd hi (Nat.not_lt_zero _)⟩

/-- Constructing a buffer of a legal capacity makes the BUF unit legal; the slots it had are kept, none of them valid. -/
theorem create_inv {c : Config} {b : BufUnit} (h : BufInv c b) {n : Nat} (h1 : 1 ≤ n) (h2 : n ≤ c.nmax) :
    BufInv c { b with valid := true, cap := n, count := 0 } :=
  ⟨h.storeWf, h.storeFits, fun _ => ⟨h1, h2⟩, fun _ => Nat.zero_le _, fun _ _ hi => absurd hi (Nat.not_lt_zero _)⟩

theorem afterReset_inv (c : Config) (epoch : Nat) : BufInv c (BufUnit.afterReset epoch) := by
  constructor <;> simp [BufUnit.afterReset, Memory.wf]

/-- The elements of a legal `BUF.ADD` fit `ELEM_W` bits. -/
theorem firstItems_fit {c : Config} {n : Int} {items : List Elem} (h : (Instr.bufAdd n items).wf c = true) :
    ∀ e ∈ firstItems n items, e < 2 ^ c.elemW := by
  simp only [Instr.wf, elemsFit, elemFits, Bool.and_eq_true, List.all_eq_true, decide_eq_true_eq] at h
  exact fun e he => h.2 e (List.mem_of_mem_take he)

/-- A command the block can be given keeps the BUF unit legal. -/
theorem exec_bufInv {i : Instr} {s t : State} (hb : BufInv s.cfg s.buf) (hi : i.wf s.cfg = true)
    (h : exec i s = .next t) : BufInv s.cfg t.buf := by
  rcases exec_next_succeeds h with ⟨v, out, u, hs, rfl⟩ | ⟨e, rfl⟩
  · cases hs with
    | bufCreate n h1 h2 => exact create_inv hb (by omega) (by omega)
    | bufAdd n items hv h0 hlen hfit =>
      have hroom : s.buf.count + (firstItems n items).length ≤ s.buf.cap := by
        rw [firstItems, List.length_take]
        omega
      exact append_inv hb hv (firstItems_fit hi) hroom
    | bufGetData n hv | bufRemove n hv => exact removeFront_inv hb hv
    | bufClear => exact count_zero_inv hb
    | _ => exact hb
  · exact hb

/-- The count of a buffer fits the response's value (10_state.md R19, 30_encoding.md R57). -/
theorem count_lt_valW {c : Config} {b : BufUnit} (hc : c.wf = true) (h : BufInv c b) (hv : b.valid = true) :
    b.count < 2 ^ c.valW := by
  simp only [Config.wf, Bool.and_eq_true, decide_eq_true_eq] at hc
  have hcap := h.capLegal hv
  have hcount := h.countLegal hv
  exact lt_valW_of_lt_24 c (by omega)

/-- Every response of a command fits its fields, and an error response carries nothing. -/
theorem exec_response_legal {i : Instr} {s t : State} (hc : s.cfg.wf = true) (hb : BufInv s.cfg s.buf)
    (h : exec i s = .next t) : ∀ a, t.resp = some a → ResponseLegal s.cfg a := by
  rcases exec_next_succeeds h with ⟨v, out, u, hs, rfl⟩ | ⟨e, rfl⟩
  · rintro a ⟨⟩
    have hbool (x : Bool) : boolValue x < 2 ^ s.cfg.valW :=
      lt_valW_of_lt_24 _ (by cases x <;> simp [boolValue])
    have hnone : ∀ e ∈ ([] : List Elem), e < 2 ^ s.cfg.elemW := by simp
    cases hs with
    | crcGetResult | crcComputeNothing | crcCompute => exact okResponse_legal (crc_lt_valW _ _) hnone
    | bufCount hv => exact okResponse_legal (count_lt_valW hc hb hv) hnone
    | bufHasData | bufHasDataN => exact okResponse_legal (hbool _) hnone
    | bufPeek n => exact okResponse_legal (lt_valW_of_lt_elemW _ (slot_fits hb _)) hnone
    | bufGetData n hv => exact okResponse_legal (by positivity) (slots_fit hb 0 _)
    | _ => exact okResponse_legal (by positivity) hnone
  · rintro a ⟨⟩
    exact errorResponse_legal _ e

theorem outstandingOf_mem {rs : List Requester} {r : Nat} {q : Request} (h : outstandingOf rs r = some q) :
    ∃ rq ∈ rs, rq.outstanding = some q := by
  obtain ⟨rq, hr, hq⟩ := outstandingOf_some h
  exact ⟨rq, List.mem_of_getElem? hr, hq⟩

/-- Delivering a legal response leaves every requester legal. -/
theorem deliverTo_reqsLegal {c : Config} {s : State} (r : Nat) (hq : ∀ q ∈ s.reqs, RequesterLegal c q)
    (ha : ∀ a, s.resp = some a → ResponseLegal c a) : ∀ q ∈ (deliverTo r s).reqs, RequesterLegal c q := by
  intro q hmem
  obtain ⟨k, hk⟩ := List.mem_iff_getElem?.1 hmem
  by_cases hkr : k = r
  · subst hkr
    cases hs : s.reqs[k]? with
    | none => simp [deliverTo, hs] at hk
    | some q' =>
      rw [deliverTo_reqs_self hs, Option.some.injEq] at hk
      subst hk
      refine ⟨by simp, fun a h => ?_⟩
      rcases List.mem_append.1 h with h | h
      · exact (hq q' (List.mem_of_getElem? hs)).2 a h
      · exact ha a (by simpa using h)
  · rw [deliverTo_reqs_other hkr] at hk
    exact hq q (List.mem_of_getElem? hk)

/-- Delivering the legal response of a command that left the BUF unit legal gives back the invariant. -/
theorem deliverTo_inv {s u : State} {a : Response} (r : Nat) (h : Inv s) (hu : Answered s u a)
    (hb : BufInv s.cfg u.buf) (ha : ∀ a, u.resp = some a → ResponseLegal s.cfg a) : Inv (deliverTo r u) := by
  obtain ⟨-, hcfg, hreqs, hinputs, -⟩ := hu
  refine ⟨?_, ?_, rfl, ?_, ?_, ?_⟩
  · simpa [hcfg] using h.cfgWf
  · simpa [hcfg] using hb
  · simpa [hcfg, hreqs] using h.reqCount
  · rw [deliverTo_cfg, hcfg]
    exact deliverTo_reqsLegal r (by rw [hreqs]; exact h.reqsLegal) ha
  · simpa [hcfg, hinputs] using h.inputsLegal

theorem grantRequester_inv {r : Nat} {s t : State} (h : Inv s) (hg : grantRequester r s = .next t) : Inv t := by
  rcases grantRequester_next_cases hg with ⟨-, rfl⟩ | ⟨q, ho, ⟨_, -, rfl⟩ | ⟨i, u, hd, -, he, rfl⟩⟩
  · exact h
  · refine deliverTo_inv r h ⟨rfl, rfl, rfl, rfl, rfl⟩ h.bufInv ?_
    rintro a ⟨⟩
    exact errorResponse_legal _ _
  · obtain ⟨rq, hmem, hq⟩ := outstandingOf_mem ho
    have hi : i.wf s.cfg = true := decode_wf ((h.reqsLegal rq hmem).1 q hq) hd
    obtain ⟨a, ha⟩ := exec_answered he
    exact deliverTo_inv r h ha (exec_bufInv h.bufInv hi he) (exec_response_legal h.cfgWf h.bufInv he)

/-- Taking an input off the list keeps the invariant, and so does counting a grant no input named. -/
theorem beforeGrant_inv {s : State} (h : Inv s) : Inv (beforeGrant s) := by
  refine ⟨?_, ?_, ?_, ?_, ?_, ?_⟩
  · simpa using h.cfgWf
  · simpa using h.bufInv
  · simpa using h.portEmpty
  · simpa using h.reqCount
  · simpa using h.reqsLegal
  · rw [beforeGrant_inputs, beforeGrant_cfg]
    exact fun e he => h.inputsLegal e (List.mem_of_mem_tail he)

theorem hardwareReset_inv {s : State} (h : Inv s) : Inv (hardwareReset s) :=
  ⟨h.cfgWf, afterReset_inv _ _, h.portEmpty, h.reqCount, h.reqsLegal, h.inputsLegal⟩

/-- A requester of legal number presents a legal command. -/
theorem present_inv {s : State} {r : Nat} {q : Request} {rq : Requester} (h : Inv s) (hr : s.reqs[r]? = some rq)
    (hq : q.wf s.cfg = true) : Inv (s.setReqs (s.reqs.set r { rq with outstanding := some q })) := by
  refine ⟨h.cfgWf, h.bufInv, h.portEmpty, ?_, ?_, h.inputsLegal⟩
  · simpa using h.reqCount
  · intro x hx
    rcases List.mem_or_eq_of_mem_set hx with hx | rfl
    · exact h.reqsLegal x hx
    · refine ⟨?_, (h.reqsLegal rq (List.mem_of_getElem? hr)).2⟩
      rintro _ ⟨⟩
      exact hq

/-- Settles O40: the invariant through each of the four things a step can do (`step_next_cases`); the one that counts is
the grant, where the command decoded from a legal request keeps the BUF unit legal (`exec_bufInv`) and answers with a
legal response (`exec_response_legal`). -/
theorem stepKeepsTheInvariant : Obligations.StepKeepsTheInvariant := by
  intro s t h hstep
  rcases step_next_cases hstep with ⟨rest, r, q, rq, hi, hr, -, rfl⟩ | ⟨rest, hi, -, rfl⟩ | ⟨r, -, hg⟩ | ⟨-, -, rfl⟩
  · have hs : beforeGrant s = s.setInputs rest := by simp [beforeGrant, hi]
    have hq : InputLegal s.cfg (.present r q) := h.inputsLegal _ (by simp [hi])
    exact present_inv (hs ▸ beforeGrant_inv h) hr hq
  · have hs : beforeGrant s = s.setInputs rest := by simp [beforeGrant, hi]
    exact hardwareReset_inv (hs ▸ beforeGrant_inv h)
  · exact grantRequester_inv (beforeGrant_inv h) hg
  · exact h

/-! ## Reset -/

/-- Settles O1: `State.resetWith` is written field by field, and `Config.standard` is the spec's example. -/
theorem resetLeavesXmodemEngineAndNoBuffer : Obligations.ResetLeavesXmodemEngineAndNoBuffer :=
  ⟨fun _ => ⟨rfl, rfl, rfl, rfl, rfl, rfl, rfl, rfl, rfl, rfl⟩, congrArg State.resetWith (by decide)⟩

/-- Settles O39: no buffer exists and no slot is written (`afterReset_inv`), and every requester is idle. -/
theorem invariantHoldsAtReset : Obligations.InvariantHoldsAtReset := by
  intro c hc
  refine ⟨hc, afterReset_inv c 0, rfl, by simp [State.resetWith], ?_, by simp [State.resetWith]⟩
  intro q hq
  obtain rfl : q = Requester.idle := List.eq_of_mem_replicate hq
  exact ⟨by simp [Requester.idle], by simp [Requester.idle]⟩

end Sys2Proof.Proofs
end

section

/-! ## A granted command runs -/

namespace Sys2Proof.Proofs

open Sys2Proof Sys2Proof.Machine

/-- The state a grant starts from, when an input is pending and when none is. -/
theorem beforeGrant_of_cons {s : State} {e : Input} {rest : List Input} (h : s.inputs = e :: rest) :
    beforeGrant s = s.setInputs rest := by simp [beforeGrant, h]

theorem beforeGrant_of_nil {s : State} (h : s.inputs = []) : beforeGrant s = s.setDraws (s.draws + 1) := by
  simp [beforeGrant, h]

/-- A grant of a legal command with no overlapping streaming command runs it, whatever it answers. -/
theorem grantRequester_of_decode {r : Nat} {q : Request} {i : Instr} {s : State} (ho : outstandingOf s.reqs r = some q)
    (hd : decode q = .ok i) (hs : i.streaming = true → streamingElsewhere s.reqs r = false) :
    grantRequester r s = deliver r (exec i s) := by
  have hno : (i.streaming && streamingElsewhere s.reqs r) = false := by
    cases hi : i.streaming with
    | false => rfl
    | true => simp [hs hi]
  simp [grantRequester, ho, hd, hno]

/-- A step that grants such a command runs it from `beforeGrant`, however the grant came about. -/
theorem step_of_grantsNow_decode {r : Nat} {q : Request} {i : Instr} {s : State} (hg : grantsNow r s)
    (ho : outstandingOf s.reqs r = some q) (hd : decode q = .ok i)
    (hs : i.streaming = true → streamingElsewhere s.reqs r = false) :
    step s = deliver r (exec i (beforeGrant s)) := by
  rw [step_of_grantsNow hg]
  exact grantRequester_of_decode (by simpa using ho) hd (by simpa using hs)

/-- Settles O47: both ways a grant comes about are `grantsNow`, so one lemma (`step_of_grantsNow_decode`) runs the command;
they differ in the state it starts from only. -/
theorem stepRunsTheGrantedCommand : Obligations.StepRunsTheGrantedCommand := by
  refine ⟨fun s rest r q i hi ho hd hs => ?_, fun s r q i hi hc ho hd hs => ?_, fun r n => rfl⟩
  · have hg : grantsNow r s := .inl (by simp [hi])
    rw [step_of_grantsNow_decode hg ho hd hs, beforeGrant_of_cons hi]
  · have hg : grantsNow r s := .inr ⟨hi, hc⟩
    rw [step_of_grantsNow_decode hg ho hd hs, beforeGrant_of_nil hi]

end Sys2Proof.Proofs
end

section
/-! The encoding (30_encoding.md): which opcodes exist, what a selector reads, the decoder's rejections against R60, and
the decoder and the encoder as inverses of each other. -/

namespace Sys2Proof.Proofs

open Sys2Proof Sys2Proof.Laws

/-! ## The fields that R60 speaks of, through the fields of the rows -/

theorem unitField_eq (cw : BitVec 64) : unitField cw = (opField cw).extractLsb' 4 4 := by
  apply BitVec.eq_of_getLsbD_eq
  intro i hi
  simp only [unitField, opField, BitVec.getLsbD_extractLsb', hi, show 4 + i < 8 by omega, decide_true, Bool.true_and]
  congr 1; omega

theorem fnField_eq (cw : BitVec 64) : fnField cw = (opField cw).extractLsb' 0 4 := by
  apply BitVec.eq_of_getLsbD_eq
  intro i hi
  simp [fnField, opField, hi]
  intro; omega

/-- Every opcode is one of the 14 or names no function of any unit, R60 (a) to (c). -/
theorem opcode_or_undefined (op : BitVec 8) :
    (∃ m, op = opcode m) ∨ 2 ≤ (op.extractLsb' 4 4).toNat ∨
      (op.extractLsb' 4 4 = 0#4 ∧ 5 ≤ (op.extractLsb' 0 4).toNat) ∨
      (op.extractLsb' 4 4 = 1#4 ∧ 9 ≤ (op.extractLsb' 0 4).toNat) := by
  refine Or.imp_left (a := op ∈ rows.map fun r => opcode r.mnemonic) (fun hm => ?_) (by decide +revert)
  obtain ⟨r, -, rfl⟩ := List.mem_map.1 hm
  exact ⟨r.mnemonic, rfl⟩

/-- The masks of the fields that a row requires to be zero. -/
theorem and_FF (x : BitVec 8) : x &&& 0xFF#8 = x := BitVec.and_allOnes

theorem and_FFFFFF (x : BitVec 24) : x &&& 0xFFFFFF#24 = x := BitVec.and_allOnes

/-- The mask over `sel` in formats S and C admits the selectors 0 to 3 (R56). -/
theorem and_FC_eq_zero_iff (x : BitVec 8) : x &&& 0xFC#8 = 0#8 ↔ ¬ 4 ≤ x.toNat := by
  decide +revert

/-- The mask over `b` in format B is the bits `b[23:8]`. -/
theorem getLsbD_FFFF00 : ∀ i < 24, (0xFFFF00#24).getLsbD i = decide (8 ≤ i) := by decide

/-- The mask over `b` in format B tests the bits that R60 (d) names. -/
theorem and_FFFF00_eq_zero_iff (cw : BitVec 64) : bField cw &&& 0xFFFF00#24 = 0#24 ↔ bHighField cw = 0#16 := by
  constructor
  · intro h
    apply BitVec.eq_of_getLsbD_eq
    intro i hi
    have hb := congrArg (fun v => BitVec.getLsbD v (8 + i)) h
    simp only [BitVec.getLsbD_and, getLsbD_FFFF00 (8 + i) (by omega)] at hb
    simpa [bField, bHighField, hi, show 8 + i < 24 by omega] using hb
  · intro h
    apply BitVec.eq_of_getLsbD_eq
    intro i hi
    simp only [BitVec.getLsbD_and, getLsbD_FFFF00 i hi]
    by_cases h8 : 8 ≤ i
    · have hb := congrArg (fun v => BitVec.getLsbD v (i - 8)) h
      simpa [bField, bHighField, hi, h8, show i - 8 < 16 by omega, show 8 + (i - 8) = i by omega] using hb
    · simp [h8]

/-! ## What a selector reads -/

/-- The words that a row of format S or C admits carry one of the four selectors. -/
theorem sel_cases {x : BitVec 8} (h : x &&& 0xFC#8 = 0#8) : x = 0#8 ∨ x = 1#8 ∨ x = 2#8 ∨ x = 3#8 := by
  decide +revert

/-- A selector is read exactly where its code stands in `sel` and, when explicit, its record in `PW` (R55, R56). -/
theorem decodeSel_eq_ok_iff {cw : BitVec 64} {pw : BitVec 96} (h : selField cw &&& 0xFC#8 = 0#8) (sel : ParamSel) :
    decodeSel cw pw = .ok sel ↔ selField cw = selCode sel ∧ ∀ p, sel = .explicit p → pw = pack p := by
  have hexp (p : CrcParams) : (pwReserved pw = 0#14 ∧ unpack pw = p) ↔ pw = pack p :=
    ⟨fun ⟨hr, hp⟩ => hp ▸ (pack_unpack hr).symm, fun hp => hp ▸ ⟨pwReserved_pack p, unpack_pack p⟩⟩
  rcases sel_cases h with hx | hx | hx | hx
  · cases sel <;> simp [decodeSel, selLow_eq, hx, selCode]
  · cases sel <;> simp [decodeSel, selLow_eq, hx, selCode]
  · cases sel <;> simp [decodeSel, selLow_eq, hx, selCode]
  · cases sel with
    | explicit p => by_cases hr : pwReserved pw = 0#14 <;> simp [decodeSel, selLow_eq, hx, selCode, hr, ← hexp p]
    | _ => by_cases hr : pwReserved pw = 0#14 <;> simp [decodeSel, selLow_eq, hx, selCode, hr]

/-- A selector is read unless R60 (f) rejects it. -/
theorem exists_decodeSel_eq_ok_iff {cw : BitVec 64} {pw : BitVec 96} (h : selField cw &&& 0xFC#8 = 0#8) :
    (∃ sel, decodeSel cw pw = .ok sel) ↔ (selField cw = 3#8 → pwReserved pw = 0#14) := by
  rcases sel_cases h with hx | hx | hx | hx
  · simp [decodeSel, selLow_eq, hx]
  · simp [decodeSel, selLow_eq, hx]
  · simp [decodeSel, selLow_eq, hx]
  · by_cases hr : pwReserved pw = 0#14 <;> simp [decodeSel, selLow_eq, hx, hr]

/-! ## The decoder and R60 accept the same words -/

/-- The words of the command `m`: its row selects the command word, and where it takes a selector and the selector is
explicit the reserved bits of `PW` are zero. -/
def IsWordOf (m : Mnemonic) (q : Request) : Prop :=
  (rowOf m).selects q.cw = true ∧
    (m = .crcCreate ∨ m = .crcCompute → selField q.cw = 3#8 → pwReserved q.pw = 0#14)

theorem map_eq_ok_iff {α β : Type} {f : α → β} {x : Except Reject α} {b : β} :
    x.map f = .ok b ↔ ∃ a, x = .ok a ∧ f a = b := by
  cases x <;> simp [Except.map]

/-- A row of format S or C gives a command when its selector is read, every other row always. -/
theorem exists_buildInstr_eq_ok_iff {m : Mnemonic} {q : Request} (h : (rowOf m).selects q.cw = true) :
    (∃ i, buildInstr m q = .ok i) ↔ IsWordOf m q := by
  obtain ⟨-, hsel, -, -⟩ := rowOf_selects.1 h
  cases m with
  | crcCreate | crcCompute =>
    simp [buildInstr, map_eq_ok_iff, IsWordOf, h, ← exists_decodeSel_eq_ok_iff hsel]
  | _ => simp [buildInstr, IsWordOf, h]

/-- The decoder accepts exactly the words of the 14 commands. -/
theorem exists_decode_eq_ok_iff {q : Request} : (∃ i, decode q = .ok i) ↔ ∃ m, IsWordOf m q := by
  constructor
  · rintro ⟨i, hd⟩
    obtain ⟨m, hs, hb⟩ := decode_ok_cases hd
    exact ⟨m, (exists_buildInstr_eq_ok_iff hs).1 ⟨i, hb⟩⟩
  · rintro ⟨m, hm⟩
    rw [decode_of_selects hm.1]
    exact (exists_buildInstr_eq_ok_iff hm.1).2 hm

/-- With the opcode of `m`, no condition of R60 holds exactly for the words of `m`: (a) to (c) are false of the opcode,
(d) and (e) are the masks of the row, and (f) is the parameter word. -/
theorem illegalByFields_eq_false_iff {m : Mnemonic} {q : Request} (h : opField q.cw = opcode m) :
    illegalByFields q = false ↔ IsWordOf m q := by
  cases m <;>
    simp [illegalByFields, IsWordOf, unitField_eq, fnField_eq, rowOf_selects, h, opcode, selMask, aMask, bMask, and_FF,
      and_FFFFFF, and_FC_eq_zero_iff, and_FFFF00_eq_zero_iff, and_assoc]
  case crcCreate =>
    exact ⟨fun ⟨ha, hb, hs, hp⟩ => ⟨hs, ha, hb, hp⟩, fun ⟨hs, ha, hb, hp⟩ => ⟨ha, hb, hs, hp⟩⟩

/-- A word of no command's opcode is illegal by R60 (a) to (c). -/
theorem illegalByFields_of_opcode {q : Request} (h : ∀ m, opField q.cw ≠ opcode m) : illegalByFields q = true := by
  have hu := (opcode_or_undefined (opField q.cw)).resolve_left fun ⟨m, hm⟩ => h m hm
  rw [← unitField_eq, ← fnField_eq] at hu
  rcases hu with hu | hu | hu <;> simp [illegalByFields, hu]

/-- R60 accepts exactly the words of the 14 commands. -/
theorem illegalByFields_eq_false_iff_exists {q : Request} : illegalByFields q = false ↔ ∃ m, IsWordOf m q := by
  constructor
  · intro hl
    by_cases hop : ∃ m, opField q.cw = opcode m
    · obtain ⟨m, hm⟩ := hop
      exact ⟨m, (illegalByFields_eq_false_iff hm).1 hl⟩
    · exact absurd (illegalByFields_of_opcode (not_exists.1 hop)) (by simp [hl])
  · rintro ⟨m, hm⟩
    exact (illegalByFields_eq_false_iff (rowOf_selects.1 hm.1).1).2 hm

/-- Settles O42: the decoder (`exists_decode_eq_ok_iff`) and R60 (`illegalByFields_eq_false_iff_exists`) accept the same
words, those of the 14 commands. -/
theorem decoderRejectsExactlyTheIllegal : Obligations.DecoderRejectsExactlyTheIllegal := by
  intro q
  have hq : (∃ i, decode q = .ok i) ↔ illegalByFields q = false :=
    exists_decode_eq_ok_iff.trans illegalByFields_eq_false_iff_exists.symm
  cases hd : decode q <;> simpa [hd] using hq

/-! ## Decoding and encoding -/

/-- The encoder puts every command into its own row (the lemmas of Laws/PerInstr). -/
theorem encode_selects (i : Instr) : (rowOf i.mnemonic).selects (encode i).cw = true := by
  cases i with
  | crcCreate sel => exact EncodedRow.crcCreate sel
  | crcReset => exact EncodedRow.crcReset
  | crcUpdate c => exact EncodedRow.crcUpdate c
  | crcGetResult => exact EncodedRow.crcGetResult
  | crcCompute sel start length data => exact EncodedRow.crcCompute sel start length data
  | bufCreate n => exact EncodedRow.bufCreate n
  | bufAdd n items => exact EncodedRow.bufAdd n items
  | bufCount => exact EncodedRow.bufCount
  | bufHasData => exact EncodedRow.bufHasData
  | bufHasDataN n => exact EncodedRow.bufHasDataN n
  | bufPeek n => exact EncodedRow.bufPeek n
  | bufGetData n => exact EncodedRow.bufGetData n
  | bufRemove n => exact EncodedRow.bufRemove n
  | bufClear => exact EncodedRow.bufClear

/-- An operand of 24 bits is read back from the field it was put into. -/
@[simp] theorem bSigned_packCw (op sel : BitVec 8) (a b : BitVec 24) : bSigned (packCw op sel a b) = b.toInt := by
  simp [bSigned]

@[simp] theorem aSigned_packCw (op sel : BitVec 8) (a b : BitVec 24) : aSigned (packCw op sel a b) = a.toInt := by
  simp [aSigned]

/-- A selector is read back from its code and its parameter word. -/
@[simp] theorem decodeSel_packCw (op : BitVec 8) (sel : ParamSel) (a b : BitVec 24) :
    decodeSel (packCw op (selCode sel) a b) (selPw sel) = .ok sel := by
  refine (decodeSel_eq_ok_iff ?_ sel).2 ⟨by simp, ?_⟩
  · cases sel <;> simp [selCode]
  · rintro p rfl
    rfl

/-- The row of a command reads its operands back from its own encoding. -/
theorem buildInstr_encode {c : Config} {i : Instr} (h : i.wf c = true) :
    buildInstr i.mnemonic (encode i) = .ok i := by
  cases i with
  | crcCreate sel => simp [Instr.mnemonic, encode, buildInstr, Except.map]
  | crcCompute sel start length data =>
    obtain ⟨hs, hl⟩ := Bool.and_eq_true_iff.1 h
    simp [Instr.mnemonic, encode, buildInstr, Except.map, toInt_ofInt_of_operandFits hs, toInt_ofInt_of_operandFits hl]
  | crcUpdate b =>
    simp [Instr.mnemonic, encode, buildInstr, plainRequest, cField_eq]
  | bufAdd n items =>
    obtain ⟨hn, -⟩ := Bool.and_eq_true_iff.1 h
    simp [Instr.mnemonic, encode, buildInstr, plainRequest, toInt_ofInt_of_operandFits hn]
  | bufCreate n | bufHasDataN n | bufPeek n | bufGetData n | bufRemove n =>
    simp [Instr.mnemonic, encode, buildInstr, plainRequest, toInt_ofInt_of_operandFits h]
  | _ => rfl

/-- Settles O43: the encoding selects the command's own row (`encode_selects`), which reads the operands back
(`buildInstr_encode`). -/
theorem decodeOfEncodeIsTheCommand : Obligations.DecodeOfEncodeIsTheCommand := by
  intro c i h
  rw [decode_of_selects (encode_selects i), buildInstr_encode h]

/-- Settles O41: a row is the row of its mnemonic (`mem_rows`), and the word's opcode names the mnemonic. -/
theorem rowsAreDisjoint : Obligations.RowsAreDisjoint := by
  intro a ha b hb cw hsa hsb
  rw [mem_rows] at ha hb
  rw [ha, rowOf_selects] at hsa
  rw [hb, rowOf_selects] at hsb
  rw [ha, hb, opcode_inj.1 (hsa.1.symm.trans hsb.1)]

/-- Each row gives its own command. -/
theorem mnemonic_of_buildInstr {m : Mnemonic} {q : Request} {i : Instr} (h : buildInstr m q = .ok i) :
    i.mnemonic = m := by
  cases m with
  | crcCreate | crcCompute =>
    obtain ⟨sel, -, rfl⟩ := map_eq_ok_iff.1 h
    rfl
  | _ => cases h; rfl

/-- A decoded command comes from its own row. -/
theorem decode_eq_ok {q : Request} {i : Instr} (h : decode q = .ok i) :
    (rowOf i.mnemonic).selects q.cw = true ∧ buildInstr i.mnemonic q = .ok i := by
  obtain ⟨m, hs, hb⟩ := decode_ok_cases h
  rw [mnemonic_of_buildInstr hb]
  exact ⟨hs, hb⟩

/-- The byte of a word of format B, widened, is its field `b`. -/
theorem setWidth_cField {cw : BitVec 64} (h : bField cw &&& 0xFFFF00#24 = 0#24) :
    (cField cw).setWidth 24 = bField cw := by
  rw [cField_eq]
  apply BitVec.eq_of_getLsbD_eq
  intro i hi
  by_cases h8 : 8 ≤ i
  · have hb := congrArg (fun v => BitVec.getLsbD v i) h
    simp only [BitVec.getLsbD_and, getLsbD_FFFF00 i hi, h8, decide_true, Bool.and_true, BitVec.getLsbD_zero] at hb
    simp [hb]
  · simp [hi, show i < 8 by omega]

/-- The command word of a decoded command, put together again from its fields: the row fixes the opcode and the fields
that are zero, and each operand gives its field back. -/
theorem encode_cw_of_decode {q : Request} {i : Instr} (h : decode q = .ok i) : (encode i).cw = q.cw := by
  obtain ⟨hs, hb⟩ := decode_eq_ok h
  obtain ⟨hop, hsel, ha, hlow⟩ := rowOf_selects.1 hs
  rw [← packCw_fields q.cw, hop]
  cases i with
  | crcCreate sel =>
    obtain ⟨_, hd, ⟨⟩⟩ := map_eq_ok_iff.1 hb
    obtain ⟨hcode, -⟩ := (decodeSel_eq_ok_iff hsel sel).1 hd
    simp only [Instr.mnemonic, aMask, bMask, and_FFFFFF] at ha hlow
    simp [encode, Instr.mnemonic, hcode, ha, hlow]
  | crcCompute sel start length data =>
    obtain ⟨_, hd, ⟨⟩⟩ := map_eq_ok_iff.1 hb
    obtain ⟨hcode, -⟩ := (decodeSel_eq_ok_iff hsel sel).1 hd
    simp [encode, Instr.mnemonic, aSigned, bSigned, hcode]
  | crcUpdate c =>
    cases hb
    simp only [Instr.mnemonic, selMask, aMask, and_FF, and_FFFFFF] at hsel ha
    simp [encode, plainRequest, Instr.mnemonic, setWidth_cField hlow, hsel, ha]
  | _ =>
    cases hb
    simp only [Instr.mnemonic, selMask, aMask, bMask, and_FF, and_FFFFFF] at hsel ha hlow
    simp [encode, plainRequest, Instr.mnemonic, bSigned, hsel, ha, hlow]

/-- Settles O44: the row that the word selects is the command's own (`decode_eq_ok`), so that the fields of the command
are the fields of the word (`encode_cw_of_decode`), its record is the parameter word's (`decodeSel_eq_ok_iff`), and its
sequence is the request's. -/
theorem encodeOfDecodeIsTheWord : Obligations.EncodeOfDecodeIsTheWord := by
  intro c q i hq h
  obtain ⟨hs, hb⟩ := decode_eq_ok h
  obtain ⟨-, hsel, -, -⟩ := rowOf_selects.1 hs
  refine ⟨decode_wf hq h, encode_cw_of_decode h, ?_, ?_, ?_, ?_⟩
  · rintro p rfl
    obtain ⟨_, hd, ⟨⟩⟩ := map_eq_ok_iff.1 hb
    obtain ⟨-, hpw⟩ := (decodeSel_eq_ok_iff hsel _).1 hd
    exact (hpw p rfl).symm
  · rintro p a n d rfl
    obtain ⟨_, hd, ⟨⟩⟩ := map_eq_ok_iff.1 hb
    obtain ⟨-, hpw⟩ := (decodeSel_eq_ok_iff hsel _).1 hd
    exact (hpw p rfl).symm
  · rintro sel a n d rfl
    obtain ⟨_, -, ⟨⟩⟩ := map_eq_ok_iff.1 hb
    rfl
  · rintro n es rfl
    cases hb
    rfl

/-- Settles O45: each word is evaluated through the table. -/
theorem workedWordsDecode : Obligations.WorkedWordsDecode := by
  unfold Obligations.WorkedWordsDecode
  decide

end Sys2Proof.Proofs
end

section
/-! The pseudo-commands (30_encoding.md R64), and what a grant answers (R57, R60). -/

namespace Sys2Proof.Proofs

open Sys2Proof Sys2Proof.Machine

/-! ## The pseudo-commands -/

/-- A list of one command is the command. -/
@[simp] theorem execSeq_singleton (i : Instr) (s : State) : execSeq [i] s = exec i s := by
  simp only [execSeq]
  cases exec i s <;> rfl

/-- `CRC.UPDATES` of at least one byte: the register has absorbed the bytes in order, and the last response stands in
the port. -/
theorem execSeq_crcUpdate_cons (b : Byte) (bytes : List Byte) (s : State) :
    execSeq ((b :: bytes).map Instr.crcUpdate) s =
      .next ((s.setReg (crcBytes s.crc.params s.crc.reg (b :: bytes))).setResp (some (okResponse 0 []))) := by
  induction bytes generalizing b s with
  | nil => rfl
  | cons b' bytes ih => exact ih b' _

/-- The whole of `DATA` is in range. -/
theorem rangeInData_all (data : List Byte) : rangeInData 0 data.length data = true := by simp [rangeInData]

theorem dataRange_all (data : List Byte) : dataRange 0 data.length data = data := by simp [dataRange]

/-- `CRC.COMPUTEALL` of at least one byte answers the CRC of all of them. -/
theorem exec_computeAll (sel : ParamSel) {data : List Byte} (h : data ≠ []) (s : State) :
    exec (.crcCompute sel 0 data.length data) s =
      respond (crcOut (selParams sel) (crcBytes (selParams sel) (selParams sel).initialValue data)).toNat [] s := by
  simp [exec, execCrcCompute, h, rangeInData_all, dataRange_all]

/-- `BUF.ADDALL` on a constructed buffer appends all items or answers `CapacityExceeded`. -/
theorem exec_addAll {s : State} (hv : s.buf.valid = true) (items : List Elem) :
    exec (.bufAdd items.length items) s =
      if s.buf.count + items.length ≤ s.buf.cap then respond 0 [] (s.setBuf (s.buf.append items))
      else raise .capacityExceeded s := by
  have hfit : addFits s.buf items.length = decide (s.buf.count + items.length ≤ s.buf.cap) := by
    simp only [addFits]
    norm_cast
  simp [exec, execBufAdd, withBuffer, hv, hfit, firstItems]

/-- Settles O46, one expansion at a time: `CRC.UPDATES` by induction over its bytes (`execSeq_crcUpdate_cons`), the
others are one command each. -/
theorem pseudoCommandsDoWhatTheyName : Obligations.PseudoCommandsDoWhatTheyName := by
  intro s
  have kept {t : State} (hb : t.buf = s.buf) (hc : t.cfg = s.cfg) : BufKept s t := by
    simp [BufKept, BufRegsKept, SlotsKept, hb, hc]
  refine ⟨execSeq_singleton _ s, ⟨_, rfl, rfl, rfl, kept rfl rfl⟩, fun bytes => ?_, fun sel bytes hne => ?_,
    fun items hv => ?_⟩
  · cases bytes with
    | nil => exact ⟨s, rfl, rfl, rfl, kept rfl rfl, fun _ => rfl, fun h => absurd rfl h⟩
    | cons b bytes =>
      exact ⟨_, execSeq_crcUpdate_cons b bytes s, rfl, rfl, kept rfl rfl, nofun, fun _ => rfl⟩
  · rw [Pseudo.expand, execSeq_singleton, exec_computeAll sel hne]
    exact ⟨_, rfl, rfl⟩
  · rw [Pseudo.expand, execSeq_singleton, exec_addAll hv]
    split_ifs with hfit
    · exact ⟨_, rfl, rfl, fun _ => ⟨rfl, append_contents s.cfg s.buf items⟩, fun h => by omega⟩
    · exact ⟨_, rfl, rfl, fun h => absurd h hfit, fun _ => ⟨rfl, rfl⟩⟩

/-! ## What a grant answers -/

/-- Settles O51: the state a grant delivers from differs from the one it starts from in the units and the port only
(`grantRequester_answers`), and delivery is what the requester sees. -/
theorem everyGrantGivesExactlyOneResponse : Obligations.EveryGrantGivesExactlyOneResponse := by
  intro s t r q hg ho hstep
  rw [step_of_grantsNow hg] at hstep
  obtain ⟨u, a, ⟨hresp, hcfg, hreqs, -, -⟩, rfl⟩ := grantRequester_answers hstep (by simpa using ho)
  rw [beforeGrant_reqs] at hreqs
  refine ⟨a, ?_, deliverTo_outstanding_self r u, rfl, fun r' hne => ?_, ?_, ?_⟩
  · rw [deliverTo_receivedBy (q := q) (by rw [hreqs, ho]), hresp]
    simp [receivedBy, hreqs]
  · rw [deliverTo_reqs_other hne, hreqs]
  · rw [deliverTo_reqs_length, hreqs]
  · rw [deliverTo_cfg, hcfg, beforeGrant_cfg]

/-- A grant of an illegal command delivers `IllegalCommand` and runs nothing. -/
theorem grantRequester_of_illegal {r : Nat} {q : Request} {why : Reject} {s : State}
    (ho : outstandingOf s.reqs r = some q) (hd : decode q = .error why) :
    grantRequester r s = .next (deliverTo r (s.setResp (some (errorResponse .illegalCommand)))) := by
  simp [grantRequester, ho, hd, raise, deliver, errorResponse]

/-- Settles O48: the grant only raises (`grantRequester_of_illegal`), which writes the port, and delivers. -/
theorem illegalCommandIsAnsweredAndChangesNothing : Obligations.IllegalCommandIsAnsweredAndChangesNothing := by
  intro s r q why hg ho hd
  have hob : outstandingOf (beforeGrant s).reqs r = some q := by simpa using ho
  refine ⟨_, (step_of_grantsNow hg).trans (grantRequester_of_illegal hob hd), by simp, by simp, by simp, ?_,
    deliverTo_outstanding_self r _⟩
  rw [deliverTo_receivedBy (q := q) (by simpa using ho)]
  simp [receivedBy]

end Sys2Proof.Proofs
end

section
/-! The CRC engine (40_crc_engine.md): the algorithm of its section 1, what each CRC command writes and answers, and what
a run of them answers. -/

namespace Sys2Proof.Proofs

open Sys2Proof Sys2Proof.Machine

/-! ## The CRC algorithm -/

/-- Settles O8, from the laws of the one reversal primitive. -/
theorem reversalMirrorsBitPositions : Obligations.ReversalMirrorsBitPositions :=
  ⟨fun _ v i => revBits_getLsbD v i, fun _ => rfl, fun _ => rfl, rev8_rev8, rev16_rev16, rev16_xor⟩

/-- The usual mask 0x8000 selects bit 15. -/
theorem and_8000_ne_zero_iff (x : Word) : x &&& 0x8000#16 ≠ 0#16 ↔ x.getLsbD 15 = true := by
  rw [show 0x8000#16 = BitVec.twoPow 16 15 from rfl, BitVec.and_twoPow]
  cases x.getLsbD 15 <;> decide

/-- Settles O9: the feedback test is `crcBit_eq`; under the mask 0x8000 it reads bit 15 (`and_8000_ne_zero_iff`), which
complementing for input bit 1 turns into `r[15] ^ x`. -/
theorem bitStepFeedsBackUnderTheMask : Obligations.BitStepFeedsBackUnderTheMask := by
  refine ⟨fun r i hi => ?_, fun r => ?_, fun p r x => ⟨fun h => ?_, fun h => ?_⟩, fun p r x hm => ?_⟩
  · have hlt : i + 1 < 16 := by omega
    rw [shiftLeft1, BitVec.getLsbD_shiftLeft]
    simp [hlt]
  · simp [shiftLeft1]
  · rw [crcBit_eq, if_pos h]
  · rw [crcBit_eq, if_neg (not_not_intro h)]
  · have hbit : (if x then ~~~r else r).getLsbD 15 = (r.getLsbD 15 ^^ x) := by cases x <;> simp
    simp only [crcBit_eq, hm, and_8000_ne_zero_iff, hbit]

/-- Settles O10. -/
theorem sequenceStepContinues : Obligations.SequenceStepContinues :=
  fun p r => ⟨rfl, fun _ => rfl, crcBytes_append p r⟩

/-- Settles O11, from the two cases of the output transform. -/
theorem outputTransformOnlyWhenReflecting : Obligations.OutputTransformOnlyWhenReflecting :=
  ⟨fun _ r h => crcOut_reflected h r,
    fun p r x m h => ⟨crcOut_raw h r, crcOut_raw (p := { p with finalXor := x, outputMask := m }) h r⟩⟩

/-- With an empty mask no input bit differs from a masked one, so the polynomial is never xored in. -/
theorem crcBit_of_msbMask_zero {p : CrcParams} (h : p.msbMask = 0#16) (r : Word) (x : Bool) :
    crcBit p r x = shiftLeft1 r := by
  simp [crcBit_eq, h]

theorem crcBits_of_msbMask_zero {p : CrcParams} (h : p.msbMask = 0#16) (d : Byte) (r : Word) (k : Nat) :
    crcBits p d r k = r <<< k := by
  induction k generalizing r with
  | zero => simp [crcBits]
  | succ k ih => rw [crcBits, crcBit_of_msbMask_zero h, ih, shiftLeft1, Nat.add_comm, BitVec.shiftLeft_add]

/-- Settles O15: each of the eight bit steps is a shift by one (`crcBits_of_msbMask_zero`). -/
theorem zeroMsbMaskOnlyShifts : Obligations.ZeroMsbMaskOnlyShifts :=
  fun _ r _ h => crcBits_of_msbMask_zero h _ r 8

/-! ## What a CRC command writes and answers -/

/-- Writing the CRC unit and the response port changes nothing else. -/
theorem setCrc_setResp_frame (s : State) (c : CrcUnit) (a : Response) :
    Answered s ((s.setCrc c).setResp (some a)) a ∧ BufKept s ((s.setCrc c).setResp (some a)) :=
  ⟨⟨rfl, rfl, rfl, rfl, rfl⟩, ⟨rfl, rfl, rfl, rfl⟩, fun _ => rfl⟩

theorem rangeInData_eq_true_iff {start length : Int} {data : List Byte} :
    rangeInData start length data = true ↔ 0 ≤ start ∧ 0 ≤ length ∧ start + length ≤ data.length := by
  simp [rangeInData, and_assoc]

/-- `CRC.COMPUTE` of length 0 answers the seed, before any look at the range (R87). -/
theorem exec_crcCompute_zero (sel : ParamSel) (start : Int) (data : List Byte) (s : State) :
    exec (.crcCompute sel start 0 data) s =
      .next (s.setResp (some (okResponse (selParams sel).initialValue.toNat []))) := rfl

theorem exec_crcCompute_of_inRange (sel : ParamSel) {start length : Int} {data : List Byte} (h0 : length ≠ 0)
    (hr : rangeInData start length data = true) (s : State) :
    exec (.crcCompute sel start length data) s =
      .next (s.setResp (some (okResponse (crcOut (selParams sel)
        (crcBytes (selParams sel) (selParams sel).initialValue (dataRange start length data))).toNat []))) := by
  simp only [exec, execCrcCompute, if_neg h0, if_pos hr]
  rfl

theorem exec_crcCompute_of_outOfRange (sel : ParamSel) {start length : Int} {data : List Byte} (h0 : length ≠ 0)
    (hr : ¬ rangeInData start length data = true) (s : State) :
    exec (.crcCompute sel start length data) s =
      .next (s.setResp (some (errorResponse .preconditionViolation))) := by
  simp only [exec, execCrcCompute, if_neg h0, if_neg hr]
  rfl

/-- Every CRC command is a function of the CRC unit: from `CRC.P` and `CRC.reg` alone it makes the next CRC unit and the
response, and writes these two (R89). -/
theorem exec_crc_function_of_unit {i : Instr} (hb : i.isBuf = false) :
    ∃ f : CrcUnit → CrcUnit × Response, ∀ s,
      exec i s = .next ((s.setCrc (f s.crc).1).setResp (some (f s.crc).2)) := by
  cases i with
  | crcCreate sel => exact ⟨fun _ => (⟨selParams sel, (selParams sel).initialValue⟩, okResponse 0 []), fun _ => rfl⟩
  | crcReset => exact ⟨fun u => ({ u with reg := u.params.initialValue }, okResponse 0 []), fun _ => rfl⟩
  | crcUpdate c => exact ⟨fun u => ({ u with reg := crcByte u.params u.reg c }, okResponse 0 []), fun _ => rfl⟩
  | crcGetResult =>
    exact ⟨fun u => ({ u with reg := crcOut u.params u.reg }, okResponse (crcOut u.params u.reg).toNat []), fun _ => rfl⟩
  | crcCompute sel start length data =>
    by_cases h0 : length = 0
    · subst h0
      exact ⟨fun u => (u, _), fun s => exec_crcCompute_zero sel start data s⟩
    · by_cases hr : rangeInData start length data = true
      · exact ⟨fun u => (u, _), fun s => exec_crcCompute_of_inRange sel h0 hr s⟩
      · exact ⟨fun u => (u, _), fun s => exec_crcCompute_of_outOfRange sel h0 hr s⟩
  | _ => simp [Instr.isBuf] at hb

/-- Settles O36: both states feed the same CRC unit to one function (`exec_crc_function_of_unit`). -/
theorem crcCommandsDependOnTheCrcUnitAlone : Obligations.CrcCommandsDependOnTheCrcUnitAlone := by
  intro i s s' hb hcrc
  obtain ⟨f, hf⟩ := exec_crc_function_of_unit hb
  exact ⟨_, _, hf s, hf s', by simp [hcrc], by simp [hcrc]⟩

/-- Settles O3, one selector at a time. -/
theorem crcCreateStoresRecordAndLoadsSeed : Obligations.CrcCreateStoresRecordAndLoadsSeed := by
  intro sel s
  refine ⟨_, rfl, ?_, ?_, ?_, ?_, setCrc_setResp_frame s _ _⟩
  · rintro rfl; rfl
  · rintro rfl; rfl
  · rintro rfl; rfl
  · rintro p rfl; rfl

/-- Settles O4. -/
theorem crcResetLoadsSeed : Obligations.CrcResetLoadsSeed :=
  fun s => ⟨_, rfl, rfl, rfl, setCrc_setResp_frame s _ _⟩

/-- The byte step with its eight bit steps written out, most significant first (R77). -/
theorem crcByte_eq_foldl (p : CrcParams) (r : Word) (c : Byte) :
    crcByte p r c = [7, 6, 5, 4, 3, 2, 1, 0].foldl (fun r k => crcBit p r ((inputByte p c).getLsbD k)) r := rfl

/-- Settles O5: the register takes one byte step, whose bit steps are `crcByte_eq_foldl`. -/
theorem crcUpdateAbsorbsOneByte : Obligations.CrcUpdateAbsorbsOneByte :=
  fun c s => ⟨_, rfl, crcByte_eq_foldl s.crc.params s.crc.reg c, rfl, setCrc_setResp_frame s _ _⟩

/-- Settles O6, by the two cases of the output transform. -/
theorem crcGetResultWritesBackTheTransform : Obligations.CrcGetResultWritesBackTheTransform :=
  fun s => ⟨_, rfl, fun h => crcOut_reflected h s.crc.reg, fun h => crcOut_raw h s.crc.reg, rfl,
    setCrc_setResp_frame s _ _⟩

/-- Settles O7, by the three cases of `CRC.COMPUTE`: length 0, a range inside `DATA`, a range outside it. -/
theorem crcComputeAnswersItsRangeAndWritesNothing : Obligations.CrcComputeAnswersItsRangeAndWritesNothing := by
  intro sel start length data s
  have frame a := setCrc_setResp_frame s s.crc a
  by_cases h0 : length = 0
  · subst h0
    exact ⟨_, _, exec_crcCompute_zero sel start data s, (frame _).1, rfl, (frame _).2, fun _ => rfl,
      fun h => absurd rfl h, fun h => absurd rfl h⟩
  · by_cases hr : rangeInData start length data = true
    · refine ⟨_, _, exec_crcCompute_of_inRange sel h0 hr s, (frame _).1, rfl, (frame _).2, fun h => absurd h h0,
        fun _ hout => ?_, fun _ _ _ _ => by rw [crcBytes_eq_foldl, dataRange]⟩
      have := rangeInData_eq_true_iff.1 hr
      omega
    · exact ⟨_, _, exec_crcCompute_of_outOfRange sel h0 hr s, (frame _).1, rfl, (frame _).2, fun h => absurd h h0,
        fun _ _ => rfl, fun _ h1 h2 h3 => absurd (rangeInData_eq_true_iff.2 ⟨h1, h2, h3⟩) hr⟩

/-- Settles O13. -/
theorem zeroLengthComputeAnswersTheSeed : Obligations.ZeroLengthComputeAnswersTheSeed :=
  fun sel start data s => ⟨_, exec_crcCompute_zero sel start data s, rfl⟩

/-! ## Repeated `CRC.GETRESULT` -/

theorem crcOut_of_fullMask {p : CrcParams} (hr : p.reflectOutput = true) (hm : p.outputMask = 0xFFFF#16) (r : Word) :
    crcOut p r = rev16 r ^^^ p.finalXor := by
  rw [crcOut_reflected hr, hm]
  exact BitVec.and_allOnes

/-- Under a full mask the two reversals of the register cancel, and `finalXor` is left once reversed and once not
(R90). -/
theorem crcOut_crcOut_of_fullMask {p : CrcParams} (hr : p.reflectOutput = true) (hm : p.outputMask = 0xFFFF#16)
    (r : Word) : crcOut p (crcOut p r) = r ^^^ rev16 p.finalXor ^^^ p.finalXor := by
  rw [crcOut_of_fullMask hr hm, crcOut_of_fullMask hr hm, rev16_xor, rev16_rev16]

/-- Settles O14: each `CRC.GETRESULT` leaves `crcOut` of the register before it, and under a full mask and a palindromic
`finalXor` twice `crcOut` is the identity (`crcOut_crcOut_of_fullMask`). -/
theorem repeatedGetResultTransformsItsLastAnswer : Obligations.RepeatedGetResultTransformsItsLastAnswer := by
  intro s hr
  have twice (hm : s.crc.params.outputMask = 0xFFFF#16) (hpal : rev16 s.crc.params.finalXor = s.crc.params.finalXor)
      (r : Word) : crcOut s.crc.params (crcOut s.crc.params r) = r := by
    rw [crcOut_crcOut_of_fullMask hr hm, hpal, BitVec.xor_assoc, BitVec.xor_self, BitVec.xor_zero]
  exact ⟨_, _, _, rfl, rfl, rfl, rfl, rfl, rfl, rfl, rfl, rfl, fun hm => crcOut_crcOut_of_fullMask hr hm _,
    fun hm hpal => ⟨twice hm hpal _, twice hm hpal _⟩⟩

/-! ## Streaming and batch -/

/-- The `CRC.UPDATE`s of a message and one `CRC.GETRESULT` are a `CRC.GETRESULT` of the register that has absorbed the
message. -/
theorem execSeq_updates_getResult (msg : List Byte) (s : State) :
    execSeq (msg.map Instr.crcUpdate ++ [.crcGetResult]) s =
      exec .crcGetResult (s.setReg (crcBytes s.crc.params s.crc.reg msg)) := by
  induction msg generalizing s with
  | nil => exact execSeq_singleton _ s
  | cons b msg ih => exact ih _

/-- A message streamed after a command that starts the engine at the seed, and its answer (R86). -/
theorem streamed_answer {start : Instr} {p : CrcParams} {s s' : State} (hstart : exec start s = .next s')
    (hcrc : s'.crc = ⟨p, p.initialValue⟩) (msg : List Byte) :
    ∃ t, execSeq ([start] ++ msg.map Instr.crcUpdate ++ [.crcGetResult]) s = .next t ∧
      t.resp = some (okResponse (crcOut p (crcBytes p p.initialValue msg)).toNat []) := by
  have hrun : execSeq ([start] ++ msg.map Instr.crcUpdate ++ [.crcGetResult]) s =
      execSeq (msg.map Instr.crcUpdate ++ [.crcGetResult]) s' := by
    simp [execSeq, hstart]
  rw [hrun, execSeq_updates_getResult, hcrc]
  exact ⟨_, rfl, by simp [hcrc, okResponse]⟩

/-- The output transform leaves the seed of each preset alone, which is why streaming and batch agree on the empty
message there (R86). -/
theorem crcOut_initialValue_of_preset {sel : ParamSel} (h : sel = .xmodem ∨ sel = .mcrf4xx ∨ sel = .modbus) :
    crcOut (selParams sel) (selParams sel).initialValue = (selParams sel).initialValue := by
  rcases h with rfl | rfl | rfl <;> decide

/-- Settles O12: both starts stream the same answer (`streamed_answer`); the batch side is `exec_computeAll` for a
message of at least one byte and the seed for the empty one. -/
theorem streamingEqualsBatch : Obligations.StreamingEqualsBatch := by
  intro sel msg s
  obtain ⟨t, ht, htresp⟩ := streamed_answer (start := .crcCreate sel) (s := s) rfl rfl msg
  have hreset (hp : s.crc.params = selParams sel) :
      ∃ v, execSeq ([Instr.crcReset] ++ msg.map Instr.crcUpdate ++ [Instr.crcGetResult]) s = .next v ∧
        v.resp = t.resp := by
    rw [htresp]
    exact streamed_answer rfl (by simp [hp]) msg
  by_cases hmsg : msg = []
  · subst hmsg
    refine ⟨t, _, ht, exec_crcCompute_zero sel 0 [] s, htresp, hreset, fun h => absurd rfl h, fun _ => rfl,
      fun hsel => ?_⟩
    rw [htresp, crcBytes, crcOut_initialValue_of_preset hsel, setResp_resp]
  · exact ⟨t, _, ht, exec_computeAll sel hmsg s, htresp, hreset, fun _ => htresp.symm, fun h => absurd h hmsg,
      fun _ => htresp.symm⟩

end Sys2Proof.Proofs
end

section
/-! The bounded buffer (41_bounded_buffer.md): when a BUF command succeeds, which error it raises or stop it reaches
otherwise, and what any list of commands does to the valid data. -/

namespace Sys2Proof.Proofs

open Sys2Proof Sys2Proof.Machine

/-! ## What a BUF command answers -/

/-- A BUF command whose conditions hold completes: the converse of `exec_next_succeeds`. -/
theorem Succeeds.exec_eq {i : Instr} {s u : State} {v : Nat} {out : List Elem} (h : Succeeds s i v out u)
    (hb : i.isBuf = true) : exec i s = .next (u.setResp (some (okResponse v out))) := by
  cases h with
  | bufCreate n h1 h2 => exact (if_neg (by omega)).trans (if_neg (by omega))
  | bufAdd n items hv h0 hlen hfit =>
    refine withBuffer_eq_next.2 (.inl ⟨hv, ?_⟩)
    rw [if_neg (by omega), if_neg (by omega)]
    exact if_pos (decide_eq_true hfit)
  | bufPeek n hv h | bufGetData n hv h | bufRemove n hv h => exact withBuffer_eq_next.2 (.inl ⟨hv, if_pos h⟩)
  | bufCount hv | bufHasData hv | bufHasDataN n hv | bufClear hv => exact withBuffer_eq_next.2 (.inl ⟨hv, rfl⟩)
  | _ => cases hb

/-- A command answered `OK` succeeded with the value and the payload of the answer. -/
theorem succeeds_of_ok {i : Instr} {s t : State} {v : Nat} {out : List Elem} (h : exec i s = .next t)
    (ha : t.resp = some (okResponse v out)) :
    ∃ u, Succeeds s i v out u ∧ t = u.setResp (some (okResponse v out)) := by
  rcases exec_next_succeeds h with ⟨v', out', u, hs, rfl⟩ | ⟨e, rfl⟩
  · obtain ⟨rfl, rfl⟩ : v' = v ∧ out' = out := by simpa [okResponse] using ha
    exact ⟨u, hs, rfl⟩
  · simp [okResponse, errorResponse] at ha

/-- A command that writes the response port only keeps both units. -/
theorem keepsUnits_of_exec_eq {i : Instr} {s : State} {a : Response} (h : exec i s = .next (s.setResp (some a))) :
    ∃ t, exec i s = .next t ∧ t.crc = s.crc ∧ BufKept s t ∧ Answered s t a :=
  ⟨_, h, rfl, ⟨⟨rfl, rfl, rfl, rfl⟩, fun _ => rfl⟩, rfl, rfl, rfl, rfl, rfl⟩

/-- A command that writes the BUF unit and the response port changes nothing outside the unit. -/
theorem answered_setBuf (s : State) (b : BufUnit) (a : Response) : Answered s ((s.setBuf b).setResp (some a)) a :=
  ⟨rfl, rfl, rfl, rfl, rfl⟩

/-! ## The errors and the stops -/

/-- Every BUF command but `BUF.CREATE` begins with the `NotConstructed` check (R93). -/
theorem exec_eq_withBuffer {i : Instr} (hb : i.isBuf = true) (hc : ∀ n, i ≠ .bufCreate n) (s : State) :
    ∃ k, exec i s = withBuffer s k := by
  cases i with
  | bufCreate n => exact absurd rfl (hc n)
  | crcCreate | crcReset | crcUpdate | crcGetResult | crcCompute => cases hb
  | _ => exact ⟨_, rfl⟩

theorem exec_bufCreate_of_lt {n : Int} (h : n < 1) (s : State) :
    exec (.bufCreate n) s = .next (s.setResp (some (errorResponse .invalidArgument))) := if_pos h

theorem exec_bufAdd_of_full {n : Int} {items : List Elem} {s : State} (hv : s.buf.valid = true) (h0 : 0 ≤ n)
    (hlen : n ≤ items.length) (h : (s.buf.cap : Int) < s.buf.count + n) :
    exec (.bufAdd n items) s = .next (s.setResp (some (errorResponse .capacityExceeded))) := by
  have hfull : ¬ addFits s.buf n = true := by simpa [addFits] using h
  refine withBuffer_eq_next.2 (.inl ⟨hv, ?_⟩)
  rw [if_neg (by omega), if_neg (by omega)]
  exact if_neg hfull

theorem indexInRange_iff {b : BufUnit} {n : Int} : indexInRange b n = true ↔ 0 ≤ n ∧ n < b.count := by
  simp [indexInRange]

theorem amountAvailable_iff {b : BufUnit} {n : Int} : amountAvailable b n = true ↔ 0 < n ∧ n ≤ b.count := by
  simp [amountAvailable]

theorem removeDefined_iff {b : BufUnit} {n : Int} : removeDefined b n = true ↔ 0 ≤ n ∧ n ≤ b.count := by
  simp [removeDefined]

theorem exec_bufPeek_of_outOfRange {n : Int} {s : State} (hv : s.buf.valid = true)
    (h : ¬ (0 ≤ n ∧ n < s.buf.count)) :
    exec (.bufPeek n) s = .next (s.setResp (some (errorResponse .indexOutOfRange))) :=
  withBuffer_eq_next.2 (.inl ⟨hv, if_neg (mt indexInRange_iff.1 h)⟩)

theorem exec_bufGetData_of_unavailable {n : Int} {s : State} (hv : s.buf.valid = true)
    (h : ¬ (0 < n ∧ n ≤ s.buf.count)) :
    exec (.bufGetData n) s = .next (s.setResp (some (errorResponse .invalidArgument))) :=
  withBuffer_eq_next.2 (.inl ⟨hv, if_neg (mt amountAvailable_iff.1 h)⟩)

theorem exec_bufRemove_of_undefined {n : Int} {s : State} (hv : s.buf.valid = true)
    (h : ¬ (0 ≤ n ∧ n ≤ s.buf.count)) : exec (.bufRemove n) s = .refused .removeAmountUnspecified :=
  withBuffer_eq_refused.2 ⟨hv, if_neg (mt removeDefined_iff.1 h)⟩

/-- Settles O24: each of these commands begins with the check (`exec_eq_withBuffer`). -/
theorem bufCommandsNeedABuffer : Obligations.BufCommandsNeedABuffer := by
  intro i s hb hc hv
  obtain ⟨k, hk⟩ := exec_eq_withBuffer hb hc s
  exact keepsUnits_of_exec_eq (hk.trans (withBuffer_eq_next.2 (.inr ⟨hv, rfl⟩)))

/-- Settles O25: the two stops stand before the capacity check. -/
theorem bufAddWithoutItsItemsStops : Obligations.BufAddWithoutItsItemsStops := by
  refine fun n items s hv => ⟨fun h => ?_, fun h => ?_⟩
  · exact withBuffer_eq_refused.2 ⟨hv, if_pos h⟩
  · exact withBuffer_eq_refused.2 ⟨hv, (if_neg (by omega)).trans (if_pos h)⟩

/-! ## The valid data over a list of commands -/

/-- The valid data `q` became `q'`: `added` went in at the back, then `removed` elements, all of them there, went out at
the front (R104). -/
def Moved (q added : List Elem) (removed : Nat) (q' : List Elem) : Prop :=
  removed ≤ (q ++ added).length ∧ q' = (q ++ added).drop removed

theorem Moved.refl (q : List Elem) : Moved q [] 0 q := ⟨Nat.zero_le _, by simp⟩

/-- What is added after a removal may as well be added before it, since the removal took no more than was there. -/
theorem Moved.trans {q q' q'' added added' : List Elem} {removed removed' : Nat} (h : Moved q added removed q')
    (h' : Moved q' added' removed' q'') : Moved q (added ++ added') (removed + removed') q'' := by
  obtain ⟨hle, rfl⟩ := h
  obtain ⟨hle', rfl⟩ := h'
  have hswap : (q ++ added).drop removed ++ added' = (q ++ (added ++ added')).drop removed := by
    rw [← List.append_assoc, List.drop_append_of_le_length hle]
  refine ⟨?_, by rw [hswap, List.drop_drop]⟩
  simp only [List.length_append, List.length_drop] at hle hle' ⊢
  omega

theorem moved_append (c : Config) (b : BufUnit) (es : List Elem) :
    Moved (b.contents c) es 0 ((b.append es).contents c) := ⟨Nat.zero_le _, append_contents c b es⟩

theorem moved_removeFront (c : Config) {b : BufUnit} {n : Nat} (h : n ≤ b.count) :
    Moved (b.contents c) [] n ((b.removeFront c n).contents c) := by
  rw [Moved, List.append_nil, contents_length]
  exact ⟨h, removeFront_contents c b n⟩

/-- A command that answers an error adds nothing. -/
theorem addedBy_error (i : Instr) (e : ErrorKind) : addedBy i (errorResponse e) = [] := by
  cases i <;> rfl

/-- A command that answers an error removes nothing. -/
theorem removedBy_error (i : Instr) (e : ErrorKind) : removedBy i (errorResponse e) = 0 := by
  cases i <;> rfl

/-- A command other than a `BUF.CREATE` that constructs and `BUF.CLEAR` moves the valid data by what it adds and
removes. -/
theorem exec_moved {i : Instr} {s t : State} (hcreate : ∀ n, i = .bufCreate n → n < 1) (hclear : i ≠ .bufClear)
    (h : exec i s = .next t) :
    ∃ a, t.resp = some a ∧
      Moved (s.buf.contents s.cfg) (addedBy i a) (removedBy i a) (t.buf.contents t.cfg) := by
  rcases exec_next_succeeds h with ⟨v, out, u, hs, rfl⟩ | ⟨e, rfl⟩
  · refine ⟨okResponse v out, rfl, ?_⟩
    cases hs with
    | bufCreate n h1 h2 => exact absurd (hcreate n rfl) (by omega)
    | bufClear => exact absurd rfl hclear
    | bufAdd n items => exact moved_append s.cfg s.buf (firstItems n items)
    | bufGetData n hv hn =>
      have := amountAvailable_iff.1 hn
      exact moved_removeFront s.cfg (n := n.toNat) (by omega)
    | bufRemove n hv hn =>
      have := removeDefined_iff.1 hn
      exact moved_removeFront s.cfg (n := n.toNat) (by omega)
    | _ => exact Moved.refl _
  · refine ⟨errorResponse e, rfl, ?_⟩
    rw [addedBy_error, removedBy_error]
    exact Moved.refl _

/-- In a list of commands that completes, the first command does and the others do after it. -/
theorem execTrace_cons_eq_some {i : Instr} {is : List Instr} {s u : State} {rs : List Response}
    (h : execTrace (i :: is) s = some (u, rs)) :
    ∃ t rs', exec i s = .next t ∧ execTrace is t = some (u, rs') ∧ rs = t.resp.toList ++ rs' := by
  cases he : exec i s with
  | next t =>
    cases ht : execTrace is t with
    | none => simp [execTrace, he, ht] at h
    | some p =>
      obtain ⟨u', rs'⟩ := p
      obtain ⟨rfl, rfl⟩ : u' = u ∧ t.resp.toList ++ rs' = rs := by simpa [execTrace, he, ht] using h
      exact ⟨t, rs', rfl, ht, rfl⟩
  | fault f => cases f
  | refused w => simp [execTrace, he] at h

theorem addedTotal_cons (i : Instr) (is : List Instr) (a : Response) (rs : List Response) :
    addedTotal (i :: is) (a :: rs) = addedBy i a ++ addedTotal is rs := rfl

theorem removedTotal_cons (i : Instr) (is : List Instr) (a : Response) (rs : List Response) :
    removedTotal (i :: is) (a :: rs) = removedBy i a + removedTotal is rs := by simp [removedTotal]

/-- A list of such commands moves the valid data by all that it adds and removes. -/
theorem execTrace_moved {is : List Instr} {s u : State} {rs : List Response}
    (his : ∀ i ∈ is, (∀ n, i = .bufCreate n → n < 1) ∧ i ≠ .bufClear) (h : execTrace is s = some (u, rs)) :
    Moved (s.buf.contents s.cfg) (addedTotal is rs) (removedTotal is rs) (u.buf.contents u.cfg) := by
  induction is generalizing s rs with
  | nil =>
    obtain ⟨rfl, rfl⟩ : s = u ∧ [] = rs := by simpa [execTrace] using h
    exact Moved.refl _
  | cons i is ih =>
    obtain ⟨⟨hcreate, hclear⟩, hrest⟩ := List.forall_mem_cons.1 his
    obtain ⟨t, rs', he, ht, rfl⟩ := execTrace_cons_eq_some h
    obtain ⟨a, ha, hfirst⟩ := exec_moved hcreate hclear he
    rw [ha, Option.toList_some, List.singleton_append, addedTotal_cons, removedTotal_cons]
    exact hfirst.trans (ih hrest ht)

/-- Settles O30: the moves of the single commands compose (`Moved.trans`), by induction over the list. -/
theorem countIsAddedMinusRemoved : Obligations.CountIsAddedMinusRemoved := by
  intro is s u rs his h
  obtain ⟨hle, hq⟩ := execTrace_moved his h
  refine ⟨hq, ?_⟩
  have hcount := congrArg List.length hq
  simp only [contents_length, List.length_drop, List.length_append] at hcount hle
  omega

/-! ## Constructing, adding and clearing -/

/-- Settles O17, one clause per range of the capacity. -/
theorem bufCreateConstructsOrRejects : Obligations.BufCreateConstructsOrRejects := by
  refine fun n s => ⟨fun h1 h2 => ?_, fun h => keepsUnits_of_exec_eq (exec_bufCreate_of_lt h s), fun h1 h2 => ?_⟩
  · exact ⟨_, (Succeeds.bufCreate n h1 h2).exec_eq rfl, rfl, Int.toNat_of_nonneg (by omega), rfl, rfl, fun _ => rfl,
      answered_setBuf _ _ _⟩
  · exact (if_neg (by omega)).trans (if_pos (by omega))

theorem firstItems_length {n : Int} {items : List Elem} (hlen : n ≤ items.length) :
    (firstItems n items).length = n.toNat := by
  rw [firstItems, List.length_take]
  omega

/-- An appended element lies in the slot behind the valid data that its place among the new elements names. -/
theorem append_slot_new (c : Config) (b : BufUnit) {es : List Elem} {k : Nat} (h : k < es.length) :
    es[k]? = some ((b.append es).slot c (b.count + k)) := by
  rw [append_slot, dif_pos (by omega), List.getElem?_eq_getElem h]
  simp

theorem append_slot_kept (c : Config) {b : BufUnit} {es : List Elem} {j : Nat}
    (h : j < b.count ∨ b.count + es.length ≤ j) : (b.append es).slot c j = b.slot c j := by
  rw [append_slot, dif_neg (by omega)]

/-- Settles O18: an append writes exactly the slots behind the valid data (`append_slot_new`, `append_slot_kept`). -/
theorem bufAddAppendsOrRejectsWhole : Obligations.BufAddAppendsOrRejectsWhole := by
  refine fun n items s hv h0 hlen => ⟨fun hfit => ?_,
    fun h => keepsUnits_of_exec_eq (exec_bufAdd_of_full hv h0 hlen h)⟩
  have hlength := firstItems_length hlen
  refine ⟨_, (Succeeds.bufAdd n items hv h0 hlen hfit).exec_eq rfl, ?_, append_contents _ _ _, fun k hk => ?_,
    fun j hj => append_slot_kept _ (by rwa [hlength]), hv, rfl, rfl, answered_setBuf _ _ _⟩
  · simp only [setResp_buf, setBuf_buf, append_count, hlength]
    omega
  · rw [← List.getElem?_take_of_lt (show k < n.toNat by omega)]
    exact append_slot_new _ _ (es := firstItems n items) (by omega)

/-- Settles O23: the command succeeds, and its next state differs in the count only. -/
theorem bufClearResetsTheCountOnly : Obligations.BufClearResetsTheCountOnly :=
  fun _ hv => ⟨_, (Succeeds.bufClear hv).exec_eq rfl, rfl, rfl, hv, rfl, fun _ => rfl, rfl, answered_setBuf _ _ _⟩

/-! ## Asking -/

/-- Settles O19: the three questions succeed in the state they leave, and their values are the stated ones. -/
theorem bufQuestionsAnswerAndChangeNothing : Obligations.BufQuestionsAnswerAndChangeNothing := by
  refine fun s hv => ⟨keepsUnits_of_exec_eq ((Succeeds.bufCount hv).exec_eq rfl), ?_, fun n => ?_⟩
  · simpa only [boolValue, hasData, decide_eq_true_eq] using
      keepsUnits_of_exec_eq ((Succeeds.bufHasData hv).exec_eq rfl)
  · simpa only [boolValue, hasDataN, decide_eq_true_eq] using
      keepsUnits_of_exec_eq ((Succeeds.bufHasDataN n hv).exec_eq rfl)

/-- Settles O20: in range the slot read is the element of the valid data at the index (`contents_getElem`). -/
theorem bufPeekReadsOneElement : Obligations.BufPeekReadsOneElement := by
  refine fun n s hv => ⟨fun h0 hlt => ?_,
    fun h => keepsUnits_of_exec_eq (exec_bufPeek_of_outOfRange hv (by omega))⟩
  obtain ⟨t, ht, hkept⟩ :=
    keepsUnits_of_exec_eq ((Succeeds.bufPeek n hv (indexInRange_iff.2 ⟨h0, hlt⟩)).exec_eq rfl)
  have hin : n.toNat < (s.buf.contents s.cfg).length := by rw [contents_length]; omega
  exact ⟨t, _, ht, by rw [List.getElem?_eq_getElem hin, contents_getElem], hkept⟩

/-! ## Removing from the front -/

/-- What a command that removes `n` of the oldest elements leaves: the rest compacted into the first slots, and nothing
else written. -/
theorem removal_effect {i : Instr} {s : State} {n : Int} {out : List Elem} (hb : i.isBuf = true)
    (hs : Succeeds s i 0 out (s.setBuf (s.buf.removeFront s.cfg n.toNat))) (hv : s.buf.valid = true) (h0 : 0 ≤ n)
    (hn : n ≤ s.buf.count) :
    ∃ t, exec i s = .next t ∧ Answered s t (okResponse 0 out) ∧
      t.buf.contents t.cfg = (s.buf.contents s.cfg).drop n.toNat ∧ (t.buf.count : Int) = s.buf.count - n ∧
      (∀ j, j < s.buf.count - n.toNat → t.buf.slot t.cfg j = s.buf.slot s.cfg (j + n.toNat)) ∧
      (∀ j, s.buf.count - n.toNat ≤ j → t.buf.slot t.cfg j = s.buf.slot s.cfg j) ∧
      t.buf.valid = true ∧ t.buf.cap = s.buf.cap ∧ t.crc = s.crc := by
  refine ⟨_, hs.exec_eq hb, answered_setBuf _ _ _, removeFront_contents _ _ _, ?_, fun j hj => ?_, fun j hj => ?_,
    (removeFront_valid _ _ _).trans hv, removeFront_cap _ _ _, rfl⟩
  · simp only [setResp_buf, setBuf_buf, removeFront_count]
    omega
  · exact (removeFront_slot _ _ _ _).trans (if_pos hj)
  · exact (removeFront_slot _ _ _ _).trans (if_neg (by omega))

/-- Settles O21: the copy is the front of the valid data (`slots_zero_eq_take`), and the removal is `removal_effect`. -/
theorem bufGetDataCopiesOutThenRemoves : Obligations.BufGetDataCopiesOutThenRemoves := by
  refine fun n s hv => ⟨fun h0 hn => ?_,
    fun h => keepsUnits_of_exec_eq (exec_bufGetData_of_unavailable hv (by omega))⟩
  rw [← slots_zero_eq_take s.cfg s.buf n.toNat (by omega)]
  exact removal_effect rfl (.bufGetData n hv (amountAvailable_iff.2 ⟨h0, hn⟩)) hv (by omega) hn

/-- Settles O22: in range the removal is `removal_effect`. -/
theorem bufRemoveDiscardsAndCompacts : Obligations.BufRemoveDiscardsAndCompacts := by
  refine fun n s hv => ⟨fun h0 hn => ?_, fun h => exec_bufRemove_of_undefined hv (by omega)⟩
  exact removal_effect rfl (.bufRemove n hv (removeDefined_iff.2 ⟨h0, hn⟩)) hv h0 hn

/-! ## Several commands together -/

/-- Settles O27: both read slot `i`, `BUF.GETDATA i+1` as the last one it copies. -/
theorem peekAgreesWithGetData : Obligations.PeekAgreesWithGetData := by
  intro i s t v h ha
  obtain ⟨u, hs, -⟩ := succeeds_of_ok h ha
  cases hs with
  | bufPeek _ hv hr =>
    obtain ⟨h0, hlt⟩ := indexInRange_iff.1 hr
    have hav : amountAvailable s.buf (i + 1) = true := amountAvailable_iff.2 ⟨by omega, by omega⟩
    have hlast : (s.buf.slots s.cfg 0 (i + 1).toNat)[i.toNat]? = some (s.buf.slot s.cfg i.toNat) := by
      rw [List.getElem?_eq_getElem (by rw [slots_length]; omega), slots_getElem, Nat.zero_add]
    refine ⟨_, _, (Succeeds.bufGetData (i + 1) hv hav).exec_eq rfl, rfl, hlast, ?_⟩
    rw [List.getLast?_eq_getElem?, slots_length, ← hlast]
    congr 1
    omega

/-- A successful `BUF.GETDATA` cuts the valid data into what it answers and what is left. -/
theorem contents_of_getData {n : Int} {s t : State} {out : List Elem} (h : exec (.bufGetData n) s = .next t)
    (ha : t.resp = some (okResponse 0 out)) : s.buf.contents s.cfg = out ++ t.buf.contents t.cfg := by
  obtain ⟨u, hs, rfl⟩ := succeeds_of_ok h ha
  cases hs with
  | bufGetData _ hv hn =>
    have := amountAvailable_iff.1 hn
    rw [slots_zero_eq_take _ _ _ (by omega)]
    simp only [setResp_buf, setResp_cfg, setBuf_buf, setBuf_cfg, removeFront_contents, List.take_append_drop]

/-- Settles O29: each of the two cuts the valid data it finds (`contents_of_getData`). -/
theorem successiveGetDataNeverRepeats : Obligations.SuccessiveGetDataNeverRepeats := by
  intro a b s t u o1 o2 ht h1 hu h2
  rw [contents_of_getData ht h1, contents_of_getData hu h2, List.append_assoc]

/-- Adding to an empty buffer with room and then taking as many elements gives the added ones back and empties it. -/
theorem add_then_getData {t : State} (hv : t.buf.valid = true) (h0 : t.buf.count = 0) {es : List Elem}
    (h1 : 1 ≤ es.length) (hfit : es.length ≤ t.buf.cap) :
    ∃ u v, exec (.bufAdd es.length es) t = .next u ∧ u.resp = some (okResponse 0 []) ∧
      exec (.bufGetData es.length) u = .next v ∧ v.resp = some (okResponse 0 es) ∧ v.buf.count = 0 := by
  obtain ⟨u, hu, hcount, hq, -, -, huv, -, -, hua, -⟩ :=
    (bufAddAppendsOrRejectsWhole es.length es t hv (by omega) (by omega)).1 (by omega)
  obtain ⟨v, hexec, ⟨hva, -⟩, -, hvcount, -⟩ :=
    (bufGetDataCopiesOutThenRemoves es.length u huv).1 (by omega) (by omega)
  have hempty : t.buf.contents t.cfg = [] := List.eq_nil_of_length_eq_zero (by rw [contents_length, h0])
  rw [hq, hempty, List.nil_append, Int.toNat_natCast, List.take_length, List.take_length] at hva
  exact ⟨u, v, hu, hua, hexec, hva, by omega⟩

/-- Settles O28 from what the single commands do (`bufCreateConstructsOrRejects`, `add_then_getData`,
`bufAddAppendsOrRejectsWhole`). -/
theorem filledBufferDrainsInOrder : Obligations.FilledBufferDrainsInOrder := by
  refine ⟨fun es s h1 hmax => ?_, fun s => ?_, fun e e' s hmax => ?_⟩
  · obtain ⟨t, ht, htv, htcap, ht0, -⟩ := (bufCreateConstructsOrRejects es.length s).1 (by omega) (by omega)
    obtain ⟨u, v, hu, hua, hexec, hva, hv0⟩ := add_then_getData htv ht0 h1 (by omega)
    exact ⟨t, u, v, ht, hu, hua, hexec, hva, hv0⟩
  · exact ⟨⟨_, exec_bufCreate_of_lt (by omega) s, rfl⟩, ⟨_, exec_bufCreate_of_lt (by omega) s, rfl⟩⟩
  · obtain ⟨t, ht, htv, htcap, ht0, -, -, hta, -⟩ := (bufCreateConstructsOrRejects 1 s).1 (by omega) (by omega)
    obtain ⟨u, hu, hcount, -, -, -, huv, hucap, -, hua, -⟩ :=
      (bufAddAppendsOrRejectsWhole 1 [e] t htv (by omega) (by simp)).1 (by omega)
    have hfull := exec_bufAdd_of_full (items := [e']) huv (n := 1) (by omega) (by simp) (by omega)
    exact ⟨t, u, _, ht, hta, hu, hua, hfull, rfl⟩

end Sys2Proof.Proofs
end

section
/-! Errors and their responses, who is granted, and endless runs (60_exceptions.md). -/

namespace Sys2Proof.Proofs

open Sys2Proof Sys2Proof.Machine

/-! ## An error is a response and nothing else -/

/-- Settles O34. -/
theorem statusCodesAreTheTables : Obligations.StatusCodesAreTheTables := by
  refine ⟨rfl, rfl, rfl, rfl, rfl, rfl, rfl, fun x => ?_⟩
  cases x with
  | ok => decide
  | error e => cases e <;> decide

/-- A command answered with a non-OK status wrote the port only, and its response carries nothing (R116). -/
theorem exec_not_ok {i : Instr} {s t : State} {a : Response} (h : exec i s = .next t) (ha : t.resp = some a)
    (hne : a.status ≠ .ok) : t = s.setResp (some a) ∧ ∃ e, a = errorResponse e := by
  rcases exec_next_cases h with ⟨v, out, c, b, rfl⟩ | ⟨e, rfl⟩
  · obtain rfl : okResponse v out = a := by simpa using ha
    exact absurd rfl hne
  · obtain rfl : errorResponse e = a := by simpa using ha
    exact ⟨rfl, e, rfl⟩

@[simp] theorem receivedBy_beforeGrant (s : State) (r : Nat) : receivedBy (beforeGrant s) r = receivedBy s r := by
  simp [receivedBy]

/-- What requester `r` has been given after a command it had outstanding in `s` is answered with `a`. -/
theorem receivedBy_deliverTo_of_answered {s u : State} {r : Nat} {q : Request} {a : Response} (h : Answered s u a)
    (ho : outstandingOf s.reqs r = some q) : receivedBy (deliverTo r u) r = receivedBy s r ++ [a] := by
  obtain ⟨hresp, -, hreqs, -, -⟩ := h
  rw [deliverTo_receivedBy (q := q) (by rw [hreqs, ho]), hresp]
  simp [receivedBy, hreqs]

/-- A grant answered with a non-OK status leaves both units as they were, and the response carries nothing. -/
theorem grantRequester_not_ok {r : Nat} {s t : State} {q : Request} {a : Response} (h : grantRequester r s = .next t)
    (ho : outstandingOf s.reqs r = some q) (ha : receivedBy t r = receivedBy s r ++ [a]) (hne : a.status ≠ .ok) :
    t.crc = s.crc ∧ t.buf = s.buf ∧ ∃ e, a = errorResponse e := by
  rcases grantRequester_next_cases h with ⟨hn, -⟩ | ⟨q', -, ⟨why, -, rfl⟩ | ⟨i, u, -, -, he, rfl⟩⟩
  · simp [ho] at hn
  · have hans : Answered s (s.setResp (some (errorResponse .illegalCommand))) (errorResponse .illegalCommand) :=
      ⟨rfl, rfl, rfl, rfl, rfl⟩
    rw [receivedBy_deliverTo_of_answered hans ho] at ha
    exact ⟨rfl, rfl, _, by simpa using ha.symm⟩
  · obtain ⟨a', hans⟩ := exec_answered he
    rw [receivedBy_deliverTo_of_answered hans ho] at ha
    obtain rfl : a' = a := by simpa using ha
    obtain ⟨rfl, herr⟩ := exec_not_ok he hans.1 hne
    exact ⟨rfl, rfl, herr⟩

/-- Settles O31: the clause on a command is `exec_not_ok`, the one on a granted request `grantRequester_not_ok`. -/
theorem errorsChangeNothing : Obligations.ErrorsChangeNothing := by
  refine ⟨fun i s t a h ha hne => ?_, fun s t r q a hg ho h ha hne => ?_⟩
  · obtain ⟨ht, e, rfl⟩ := exec_not_ok h ha hne
    exact ⟨ht, rfl, rfl⟩
  · rw [step_of_grantsNow hg] at h
    obtain ⟨hc, hb, e, rfl⟩ := grantRequester_not_ok h (by simpa using ho) (by simpa using ha) hne
    exact ⟨by simpa using hc, by simpa using hb, rfl, rfl⟩

/-- Settles O33: a failed command leaves its response only (`exec_not_ok`), which no command reads (`exec_setResp`). -/
theorem failedCommandLeavesNoTrace : Obligations.FailedCommandLeavesNoTrace := by
  intro i j s t a h ha hne
  obtain ⟨rfl, -⟩ := exec_not_ok h ha hne
  exact exec_setResp j s _

/-! ## The table of errors -/

/-- The answer is the error `e`. -/
def AnswersError (e : ErrorKind) (k : Result) : Prop :=
  ∃ t v out, k = .next t ∧ t.resp = some ⟨.error e, v, out⟩

theorem not_answersError_respond {e : ErrorKind} {v : Nat} {out : List Elem} {s : State} :
    ¬ AnswersError e (respond v out s) := by
  rintro ⟨t, v', out', ⟨⟩, ha⟩
  simp at ha

theorem not_answersError_refused {e : ErrorKind} {w : Refusal} : ¬ AnswersError e (.refused w) := nofun

theorem eq_of_answersError_raise {e e' : ErrorKind} {s : State} (h : AnswersError e (raise e' s)) : e = e' := by
  obtain ⟨t, v, out, ⟨⟩, ha⟩ := h
  simp_all

/-- Behind the `NotConstructed` check an error is that one or the command's own. -/
theorem answersError_withBuffer {e : ErrorKind} {s : State} {k : Result} (h : AnswersError e (withBuffer s k)) :
    e = .notConstructed ∨ AnswersError e k := by
  unfold withBuffer at h
  split at h
  · exact .inr h
  · exact .inl (eq_of_answersError_raise h)

/-- A command raises only what the table allows it: `NotConstructed` of the check, or the one error of its own. -/
theorem canRaise_of_answersError {i : Instr} {s : State} {e : ErrorKind} (h : AnswersError e (exec i s)) :
    canRaise i.mnemonic e = true := by
  cases i with
  | crcCreate | crcReset | crcUpdate | crcGetResult => exact absurd h not_answersError_respond
  | crcCompute =>
    simp only [exec, execCrcCompute] at h
    split_ifs at h
    · exact absurd h not_answersError_respond
    · exact absurd h not_answersError_respond
    · rw [eq_of_answersError_raise h]; rfl
  | bufCreate =>
    simp only [exec, execBufCreate] at h
    split_ifs at h
    · rw [eq_of_answersError_raise h]; rfl
    · exact absurd h not_answersError_refused
    · exact absurd h not_answersError_respond
  | bufAdd =>
    rcases answersError_withBuffer h with rfl | h
    · rfl
    · split_ifs at h
      · exact absurd h not_answersError_refused
      · exact absurd h not_answersError_refused
      · exact absurd h not_answersError_respond
      · rw [eq_of_answersError_raise h]; rfl
  | bufPeek | bufGetData =>
    rcases answersError_withBuffer h with rfl | h
    · rfl
    · split_ifs at h
      · exact absurd h not_answersError_respond
      · rw [eq_of_answersError_raise h]; rfl
  | bufRemove =>
    rcases answersError_withBuffer h with rfl | h
    · rfl
    · split_ifs at h
      · exact absurd h not_answersError_respond
      · exact absurd h not_answersError_refused
  | bufCount | bufHasData | bufHasDataN | bufClear =>
    rcases answersError_withBuffer h with rfl | h
    · rfl
    · exact absurd h not_answersError_respond

/-- Right after reset, with an empty buffer of capacity 1. -/
def emptyBuffer : State := State.reset.setBuf { BufUnit.afterReset 0 with valid := true, cap := 1 }

/-- Some state and operands make a command of name `m` raise `e`. -/
def Raised (m : Mnemonic) (e : ErrorKind) : Prop :=
  ∃ (i : Instr) (s t : State), i.mnemonic = m ∧ exec i s = .next t ∧ t.resp = some (errorResponse e)

/-- Every command behind the check raises `NotConstructed` right after reset. -/
theorem notConstructed_raised {i : Instr} (hb : i.isBuf = true) (hc : ∀ n, i ≠ .bufCreate n) :
    Raised i.mnemonic .notConstructed := by
  obtain ⟨t, ht, -, -, ha, -⟩ := bufCommandsNeedABuffer i State.reset hb hc rfl
  exact ⟨i, _, t, rfl, ht, ha⟩

theorem raised_of_canRaise {m : Mnemonic} {e : ErrorKind} (h : canRaise m e = true) : Raised m e := by
  unfold canRaise at h
  split at h
  · exact ⟨.crcCompute .xmodem 0 1 [], State.reset, _, rfl, rfl, rfl⟩
  · exact ⟨.bufCreate 0, State.reset, _, rfl, rfl, rfl⟩
  · exact ⟨.bufAdd 2 [0, 0], emptyBuffer, _, rfl, rfl, rfl⟩
  · exact ⟨.bufPeek 0, emptyBuffer, _, rfl, rfl, rfl⟩
  · exact ⟨.bufGetData 0, emptyBuffer, _, rfl, rfl, rfl⟩
  · exact notConstructed_raised (i := .bufAdd 0 []) rfl nofun
  · exact notConstructed_raised (i := .bufCount) rfl nofun
  · exact notConstructed_raised (i := .bufHasData) rfl nofun
  · exact notConstructed_raised (i := .bufHasDataN 0) rfl nofun
  · exact notConstructed_raised (i := .bufPeek 0) rfl nofun
  · exact notConstructed_raised (i := .bufGetData 0) rfl nofun
  · exact notConstructed_raised (i := .bufRemove 0) rfl nofun
  · exact notConstructed_raised (i := .bufClear) rfl nofun
  · cases h

/-- Selector 4 is legal in no row: each requires `sel` to be zero or at most 3 (R60 (d), (e)). -/
theorem four_and_selMask_ne_zero (m : Mnemonic) : 4#8 &&& selMask m ≠ 0#8 := by
  cases m <;> decide

theorem decode_error_of_selField_four {q : Request} (h : selField q.cw = 4#8) : ∃ why, decode q = .error why := by
  cases hd : decode q with
  | error why => exact ⟨why, rfl⟩
  | ok i =>
    obtain ⟨m, hs, -⟩ := decode_ok_cases hd
    obtain ⟨-, hsel, -, -⟩ := rowOf_selects.1 hs
    exact absurd (h ▸ hsel) (four_and_selMask_ne_zero m)

/-- Settles O32: the errors of the commands are `canRaise_of_answersError`, that each is raised `raised_of_canRaise`, and
the illegal word of each opcode is the one with selector 4. -/
theorem errorTableIsComplete : Obligations.ErrorTableIsComplete := by
  refine ⟨fun i s t e v out h ha => canRaise_of_answersError ⟨t, v, out, h, ha⟩, fun m e => raised_of_canRaise,
    fun m => ?_⟩
  exact ⟨⟨packCw (opcode m) 4#8 0#24 0#24, 0#96, [], []⟩, by simp, decode_error_of_selField_four (by simp)⟩

/-! ## Presenting and granting -/

/-- Settles O50, one branch of `presentCommand` per clause. -/
theorem presentingMakesACommandOutstanding : Obligations.PresentingMakesACommandOutstanding := by
  intro s rest r q hi
  have hstep : step s = presentCommand r q (s.setInputs rest) := by simp [step, hi, applyInput]
  rw [hstep]
  refine ⟨fun hr ho => ?_, fun q' ho => ?_, fun hr => ?_⟩
  · have hnone : s.reqs[r].outstanding = none := by simpa [outstandingOf, hr] using ho
    refine ⟨(s.setInputs rest).setReqs (s.reqs.set r { s.reqs[r] with outstanding := some q }), ?_, ?_, ?_,
      fun r' hne => ?_, by simp, rfl, rfl, rfl, rfl, rfl, rfl⟩
    · simp [presentCommand, hr, hnone]
    · simp [outstandingOf, hr]
    · simp [receivedBy, hr]
    · simp [List.getElem?_set_ne hne.symm]
  · obtain ⟨rq, hrq, hout⟩ := outstandingOf_some ho
    simp [presentCommand, hrq, hout]
  · simp [presentCommand, hr]

/-- Another requester with a streaming command outstanding is seen by the check for overlap. -/
theorem streamingElsewhere_of_other {rs : List Requester} {r r' : Nat} {q : Request} {i : Instr} (hne : r ≠ r')
    (ho : outstandingOf rs r' = some q) (hd : decode q = .ok i) (hs : i.streaming = true) :
    streamingElsewhere rs r = true := by
  obtain ⟨rq, hrq, hout⟩ := outstandingOf_some ho
  have hmem : rq ∈ rs.eraseIdx r := List.mem_eraseIdx_iff_getElem?.2 ⟨r', hne.symm, hrq⟩
  exact List.any_eq_true.2 ⟨rq, hmem, by simp [holdsStreaming, hout, hd, hs]⟩

/-- Settles O49: the grant checks the other requesters (`streamingElsewhere_of_other`) before it runs the command. -/
theorem overlappingStreamingStops : Obligations.OverlappingStreamingStops := by
  intro s r r' q q' i j hg hne ho ho' hd hd' hi hj
  have helse := streamingElsewhere_of_other hne ho' hd' hj
  rw [step_of_grantsNow hg]
  simp [grantRequester, ho, hd, hi, helse]

/-- `CRC.COMPUTE` has one response, whatever the state, and writes nothing else. -/
theorem exec_crcCompute_response (sel : ParamSel) (start length : Int) (data : List Byte) :
    ∃ a, ∀ s, exec (.crcCompute sel start length data) s = .next (s.setResp (some a)) := by
  by_cases h0 : length = 0
  · subst h0
    exact ⟨_, exec_crcCompute_zero sel start data⟩
  · by_cases hr : rangeInData start length data = true
    · exact ⟨_, exec_crcCompute_of_inRange sel h0 hr⟩
    · exact ⟨_, exec_crcCompute_of_outOfRange sel h0 hr⟩

/-- Settles O52: `CRC.COMPUTE` is not streaming, so its grant always runs it (`step_of_grantsNow_decode`), and what it
answers is fixed by its operands (`exec_crcCompute_response`). -/
theorem computeDisturbsNothing : Obligations.ComputeDisturbsNothing := by
  intro sel start length data
  obtain ⟨a, ha⟩ := exec_crcCompute_response sel start length data
  refine ⟨a, fun s r q hg ho hd => ⟨deliverTo r ((beforeGrant s).setResp (some a)), ?_, by simp, by simp, ?_,
    fun r' hne => ?_⟩⟩
  · rw [step_of_grantsNow_decode hg ho hd nofun, ha]
    rfl
  · have hans : Answered (beforeGrant s) ((beforeGrant s).setResp (some a)) a := ⟨rfl, rfl, rfl, rfl, rfl⟩
    rw [receivedBy_deliverTo_of_answered (q := q) hans (by simpa using ho), receivedBy_beforeGrant]
  · simp [deliverTo_reqs_other hne]

/-- Settles O54: of the two waiting requesters the free choice grants one first, and then only the other waits, so the
run is that of one of the two named orders. -/
theorem togetherPresentedCommandsHaveTwoOutcomes : Obligations.TogetherPresentedCommandsHaveTwoOutcomes := by
  unfold Obligations.TogetherPresentedCommandsHaveTwoOutcomes
  intro s seen addFirst takeFirst
  refine ⟨by decide, by decide, ?_⟩
  have hfirst : freeChoice (waiting s.reqs) s.draws = some 0 ∨ freeChoice (waiting s.reqs) s.draws = some 1 := by
    change [0, 1][Config.freeGrant 0 % 2]? = some 0 ∨ [0, 1][Config.freeGrant 0 % 2]? = some 1
    rcases Nat.mod_two_eq_zero_or_one (Config.freeGrant 0) with h | h <;> simp [h]
  rcases hfirst with h | h
  · left
    have hs : step s = grantRequester 0 (beforeGrant s) := step_of_grantsNow (.inr ⟨rfl, h⟩)
    rw [twoSteps, hs]
    decide
  · right
    have hs : step s = grantRequester 1 (beforeGrant s) := step_of_grantsNow (.inr ⟨rfl, h⟩)
    rw [twoSteps, hs]
    decide

/-! ## Endless runs -/

/-- A step leaves an outstanding command outstanding unless it grants it. -/
theorem step_keeps_outstanding {r : Nat} {q : Request} {s t : State} (h : step s = .next t)
    (ho : outstandingOf s.reqs r = some q) (hg : ¬ grantsNow r s) : outstandingOf t.reqs r = some q := by
  rcases step_next_cases h with
    ⟨_, r', _, rq, -, hr', hidle, rfl⟩ | ⟨_, -, -, rfl⟩ | ⟨r', hg', hgrant⟩ | ⟨-, -, rfl⟩
  · have hne : r' ≠ r := by
      rintro rfl
      simp [outstandingOf, hr', hidle] at ho
    simpa [outstandingOf, List.getElem?_set_ne hne] using ho
  · exact ho
  · have hne : r ≠ r' := by
      rintro rfl
      exact hg hg'
    rcases grantRequester_next_cases hgrant with ⟨-, rfl⟩ | ⟨q', ho', -⟩
    · simpa using ho
    · obtain ⟨u, a, ⟨-, -, hreqs, -, -⟩, rfl⟩ := grantRequester_answers hgrant ho'
      rw [outstandingOf, deliverTo_reqs_other hne, hreqs, beforeGrant_reqs]
      exact ho
  · exact ho

/-- In a run a command that is never granted stays outstanding. -/
theorem run_keeps_outstanding {tr : Nat → State} {new : Nat → List Input} (hrun : Run tr new) {r k : Nat} {q : Request}
    (ho : outstandingOf (tr k).reqs r = some q)
    (hnever : ∀ j, k ≤ j → outstandingOf (tr j).reqs r = some q → ¬ grantsNow r (prompted (tr j) (new j))) :
    ∀ j, k ≤ j → outstandingOf (tr j).reqs r = some q := by
  intro j hj
  induction j, hj using Nat.le_induction with
  | base => exact ho
  | succ j hj ih => exact step_keeps_outstanding (hrun j) ih (hnever j hj ih)

/-- Settles O55: if no step granted the command it would wait without end (`run_keeps_outstanding`), and then it is
granted because its grant is owed; a step that grants it answers it (`everyGrantGivesExactlyOneResponse`). -/
theorem dueGrantsAnswerEveryCommand : Obligations.DueGrantsAnswerEveryCommand := by
  intro tr new hrun hdue r k q ho howed
  have hgranted : ∃ j, k ≤ j ∧ outstandingOf (tr j).reqs r = some q ∧ grantsNow r (prompted (tr j) (new j)) := by
    by_contra hnever
    push Not at hnever
    have hwaits := run_keeps_outstanding hrun ho hnever
    obtain ⟨j, hj, hg⟩ := hdue r k q hwaits howed
    exact hnever j hj (hwaits j hj) hg
  obtain ⟨j, hj, hoj, hg⟩ := hgranted
  obtain ⟨a, ha, -⟩ := everyGrantGivesExactlyOneResponse _ _ r q hg hoj (hrun j)
  exact ⟨j, hj, hoj, a, ha⟩

/-! ## A run that starves a requester -/

/-- Two requesters without fairness: requester 1 has `BUF.COUNT` outstanding, and requester 0 has been answered `n` times
and has `pending` outstanding. -/
def starving (n : Nat) (pending : Option Request) : State :=
  (State.resetWith { Config.standard with nreq := 2 }).setReqs
    [⟨pending, List.replicate n (errorResponse .notConstructed)⟩, ⟨some (encode .bufCount), []⟩]

/-- Requester 0 presents `BUF.COUNT` at the even instants and is granted at the odd ones. -/
def starvingRun (k : Nat) : State :=
  starving (k / 2) (if k % 2 = 0 then none else some (encode .bufCount))

def starvingInputs (k : Nat) : List Input :=
  if k % 2 = 0 then [.present 0 (encode .bufCount)] else [.grant 0]

theorem starvingRun_even (n : Nat) : starvingRun (2 * n) = starving n none := by
  simp [starvingRun]

theorem starvingRun_odd (n : Nat) : starvingRun (2 * n + 1) = starving n (some (encode .bufCount)) := by
  rw [starvingRun, if_neg (by omega), show (2 * n + 1) / 2 = n by omega]

/-- The grant of requester 0 while requester 1 waits. -/
theorem starving_granted (n : Nat) :
    step (prompted (starving n (some (encode .bufCount))) [.grant 0]) = .next (starving (n + 1) none) := by
  rw [starving, starving, List.replicate_succ']
  rfl

theorem starvingRun_isRun : Run starvingRun starvingInputs := by
  intro k
  obtain ⟨n, rfl | rfl⟩ := Nat.even_or_odd' k
  · rw [starvingRun_even, starvingRun_odd, starvingInputs, if_pos (by omega)]
    rfl
  · rw [starvingRun_odd, show 2 * n + 1 + 1 = 2 * (n + 1) by omega, starvingRun_even, starvingInputs,
      if_neg (by omega)]
    exact starving_granted n

/-- Requester 0 competes for the lock for ever. -/
theorem starvingRun_competes : CompetesForEver starvingRun 1 := fun k =>
  ⟨2 * k + 1, 0, encode .bufCount, by omega, by omega, by rw [starvingRun_odd]; rfl, by decide⟩

/-- The only command that waits without end is requester 1's, and without fairness its grant is not owed. -/
theorem starvingRun_grantsDue : GrantsDue starvingRun starvingInputs := by
  intro r k q hwaits howed
  exfalso
  match r with
  | 0 =>
    have h := hwaits (2 * k) (by omega)
    rw [starvingRun_even] at h
    cases h
  | 1 =>
    obtain rfl : encode .bufCount = q := Option.some.inj (hwaits k le_rfl)
    rcases howed with h | h | h
    · exact absurd h (by decide)
    · cases h
    · exact h starvingRun_competes
  | r + 2 => cases hwaits k le_rfl

/-- The run starts from reset after requester 1 has presented. -/
theorem starvingRun_inv : Inv (starvingRun 0) :=
  present_inv (r := 1) (rq := Requester.idle) (invariantHoldsAtReset { Config.standard with nreq := 2 } (by decide)) rfl
    (by decide)

/-- Settles O56 by `starvingRun`. -/
theorem withoutFairnessARequesterMayStarve : Obligations.WithoutFairnessARequesterMayStarve := by
  refine ⟨starvingRun, starvingInputs, starvingRun_isRun, starvingRun_grantsDue, starvingRun_inv, rfl, rfl,
    fun k => rfl, fun k => ⟨2 * k + 1, by omega, errorResponse .notConstructed, ?_⟩⟩
  rw [show 2 * k + 1 + 1 = 2 * (k + 1) by omega, starvingRun_even, starvingRun_odd]
  exact List.replicate_succ'

end Sys2Proof.Proofs
end

section
/-! Hardware reset and the idle block (70_reset_and_hazards.md sections 1, 4 and 6). -/

namespace Sys2Proof.Proofs

open Sys2Proof Sys2Proof.Machine

/-- A hardware reset with nobody waiting. -/
theorem step_hardReset_of_noneWaiting {s : State} {rest : List Input} (hi : s.inputs = .hardReset :: rest)
    (hw : waiting s.reqs = []) : step s = .next (hardwareReset (s.setInputs rest)) := by
  simp [step, hi, applyInput, hw]

/-- A hardware reset with somebody waiting. -/
theorem step_hardReset_of_waiting {s : State} {rest : List Input} (hi : s.inputs = .hardReset :: rest)
    (hw : waiting s.reqs ≠ []) : step s = .refused .resetWhileOutstanding := by
  simp [step, hi, applyInput, hw]

/-- Settles O2, by whether the list of waiting requesters is empty. -/
theorem hardwareResetResetsBothUnitsOnly : Obligations.HardwareResetResetsBothUnitsOnly := by
  intro s rest hi
  refine ⟨fun hnone => ?_, fun r q ho => ?_⟩
  · exact ⟨_, step_hardReset_of_noneWaiting hi (waiting_eq_nil.2 hnone), rfl, rfl, rfl, rfl, rfl, rfl, rfl, rfl⟩
  · have hmem : r ∈ waiting s.reqs := mem_waiting.2 (by simp [ho])
    exact step_hardReset_of_waiting hi (List.ne_nil_of_mem hmem)

/-- Settles O53: with nobody waiting the free choice grants nobody (`freeChoice_eq_none`). -/
theorem idleBlockHoldsItsState : Obligations.IdleBlockHoldsItsState := by
  intro s hi hnone
  have hc : freeChoice (waiting s.reqs) s.draws = none := freeChoice_eq_none.2 (waiting_eq_nil.2 hnone)
  simp [step, hi, runUnprompted, hc]

end Sys2Proof.Proofs
end

section
/-! The source's known answers (95_test_vectors.md section 1). -/

namespace Sys2Proof.Proofs

open Sys2Proof Sys2Proof.Machine

/-- With the XModem preset the answer over the whole of `DATA` is the register that has absorbed it: the preset's output
transform is the identity. -/
theorem exec_computeAll_xmodem {data : List Byte} {w : Word} (hne : data ≠ [])
    (hw : crcBytes xmodemParams xmodemParams.initialValue data = w) (s : State) :
    exec (.crcCompute .xmodem 0 data.length data) s = .next (s.setResp (some (okResponse w.toNat []))) := by
  rw [exec_computeAll .xmodem hne, selParams, crcOut_raw rfl, hw]
  rfl

/-- Settles O16: each command covers the whole of its `DATA` (`exec_computeAll_xmodem`), and the register that has
absorbed each message is evaluated. -/
theorem sourceKnownAnswers : Obligations.SourceKnownAnswers := by
  intro s
  have e1 : crcBytes xmodemParams xmodemParams.initialValue [0xAB, 0xCD, 0xEF] = 0x21A4#16 := by decide +kernel
  have e2 : crcBytes xmodemParams xmodemParams.initialValue [0xAB, 0xCD, 0xEF, 0x12, 0x34, 0x56, 0x78] =
      0x948A#16 := by decide +kernel
  have e3 : crcBytes xmodemParams xmodemParams.initialValue
      [0x48, 0x65, 0x6C, 0x6C, 0x6F, 0x20, 0x57, 0x6F, 0x72, 0x6C, 0x64] = 0x992A#16 := by decide +kernel
  exact ⟨exec_computeAll_xmodem (List.cons_ne_nil _ _) e1 s, exec_computeAll_xmodem (List.cons_ne_nil _ _) e2 s,
    exec_computeAll_xmodem (List.cons_ne_nil _ _) e3 s⟩

end Sys2Proof.Proofs
end
